-- ==== Sys2Proof/Word.lean ====
section
/-! DEFINITION. The word types of the machine (00_scope.md R6, R8). All values are unsigned. -/

namespace Sys2Proof

/-- A byte: a general register, a timer, a memory cell (R6: `REG_WIDTH`, `TIMER_WIDTH`). -/
abbrev Byte := BitVec 8

/-- A 16-bit word: an instruction word, the program counter, the index register, a stack slot (R6). -/
abbrev Word := BitVec 16

/-- A 4-bit nibble: an opcode or operand field (R8, R14). -/
abbrev Nibble := BitVec 4

/-- A register index, always a 4-bit field (10_state.md R20): every value names a register. -/
abbrev RegIx := BitVec 4

end Sys2Proof
end

