-- ==== Sys2Proof/Config.lean ====
section
/-! DEFINITION. What is fixed for this hardware (00_scope.md R6) and the free values, which the spec
leaves open (93_implementation_defined.md §1). -/

namespace Sys2Proof.Config

/-- `MEM_SIZE`: addresses 0x000..0xFFF exist (R6). -/
abbrev memSize : Nat := 4096

/-- `LOAD_BASE`: where the program image is written, and the PC at reset (R6). -/
abbrev loadBase : Nat := 0x200

/-- `STACK_DEPTH` (R6). -/
abbrev stackDepth : Nat := 16

/-- `FB_WIDTH` (R6). -/
abbrev fbWidth : Nat := 64

/-- `FB_HEIGHT` (R6). -/
abbrev fbHeight : Nat := 32

/-- `NREG` (R6). -/
abbrev numRegs : Nat := 16

/-- `NKEYS`: logical keys are 0..15 (R6). -/
abbrev numKeys : Nat := 16

/-- Bytes of one glyph (R6); glyph `d` stands at `5 * d` (10_state.md R33). -/
abbrev glyphSize : Nat := 5

/-- `TIMER_HZ`: recorded, used by no rule (R6, 70_reset_and_hazards.md R269). -/
abbrev timerHz : Nat := 60

/-- `FLAG_REG`: VF (R6, 10_state.md R21). -/
abbrev flagReg : RegIx := 0xF

/-- The sixteen glyphs, one row of the table of 10_state.md R33 each.
PRESUMED (the spec marks the bytes as general knowledge, D12), unsafe, log 3. -/
def glyphs : List (List Byte) :=
  [[0xF0, 0x90, 0x90, 0x90, 0xF0],
   [0x20, 0x60, 0x20, 0x20, 0x70],
   [0xF0, 0x10, 0xF0, 0x80, 0xF0],
   [0xF0, 0x10, 0xF0, 0x10, 0xF0],
   [0x90, 0x90, 0xF0, 0x10, 0x10],
   [0xF0, 0x80, 0xF0, 0x10, 0xF0],
   [0xF0, 0x80, 0xF0, 0x90, 0xF0],
   [0xF0, 0x10, 0x20, 0x40, 0x40],
   [0xF0, 0x90, 0xF0, 0x90, 0xF0],
   [0xF0, 0x90, 0xF0, 0x10, 0xF0],
   [0xF0, 0x90, 0xF0, 0x90, 0x90],
   [0xE0, 0x90, 0xE0, 0x90, 0xE0],
   [0xF0, 0x80, 0x80, 0x80, 0xF0],
   [0xE0, 0x90, 0x90, 0x90, 0xE0],
   [0xF0, 0x80, 0xF0, 0x80, 0xF0],
   [0xF0, 0x80, 0xF0, 0x80, 0x80]]

/-- `GLYPH_ROM`: the 80 bytes at 0x000..0x04F after reset (R6). -/
def glyphRom : List Byte := glyphs.flatten

/-- Free value: the random byte of the `n`-th draw, where the host has presented none
(10_state.md R43, D18: a draw under no law). Log 8, safe. -/
opaque randomByte : Nat → Byte

/-- Free value: the answer of the key query of the `n`-th draw for a key code above 15
(45_timers_input.md R211, D16). Log 8, safe. -/
opaque keyDownAbove15 : Nat → Bool

/-- Free value: whether the `k`-th byte or register before the failing access of the `n`-th draw holds
its new value (true) or its old one (60_exceptions.md R233, D23). Log 8, safe. -/
opaque partialEffect : Nat → Nat → Bool

end Sys2Proof.Config
end

