-- ==== Sys2Proof/Syntax.lean ====
section
/-! DEFINITION. The instructions: one constructor per row of spec/opcode_table.json, in its order, with the
operands `Decode` returns (30_encoding.md R84, R85). Operand fields have their widths in the type (R82), so
every term of `Instr` is an instruction. -/

namespace Sys2Proof

/-- The 33 operations of 30_encoding.md R84. -/
inductive Instr where
  /-- 00E0 CLS, R193. -/
  | cls
  /-- 00EE RET, R120. -/
  | ret
  /-- 1nnn JP addr, R121. -/
  | jp (nnn : BitVec 12)
  /-- 2nnn CALL addr, R122. -/
  | call (nnn : BitVec 12)
  /-- 3xkk SE Vx, byte, R123. -/
  | seImm (x : RegIx) (kk : Byte)
  /-- 4xkk SNE Vx, byte, R124. -/
  | sneImm (x : RegIx) (kk : Byte)
  /-- 5xyn SE Vx, Vy, R125. The nibble n is not examined (R85, R88). -/
  | seReg (x y : RegIx)
  /-- 6xkk LD Vx, byte, R142. -/
  | ldImm (x : RegIx) (kk : Byte)
  /-- 7xkk ADD Vx, byte, R143. -/
  | addImm (x : RegIx) (kk : Byte)
  /-- 8xy0 LD Vx, Vy, R144. -/
  | ldReg (x y : RegIx)
  /-- 8xy1 OR Vx, Vy, R145. -/
  | or (x y : RegIx)
  /-- 8xy2 AND Vx, Vy, R146. -/
  | and (x y : RegIx)
  /-- 8xy3 XOR Vx, Vy, R147. -/
  | xor (x y : RegIx)
  /-- 8xy4 ADD Vx, Vy, R150. -/
  | addReg (x y : RegIx)
  /-- 8xy5 SUB Vx, Vy, R151. -/
  | sub (x y : RegIx)
  /-- 8xy6 SHR Vx, R152. y is decoded and not used (R88). -/
  | shr (x y : RegIx)
  /-- 8xy7 SUBN Vx, Vy, R153. -/
  | subn (x y : RegIx)
  /-- 8xyE SHL Vx, R154. y is decoded and not used (R88). -/
  | shl (x y : RegIx)
  /-- 9xyn SNE Vx, Vy, R126. The nibble n is not examined (R85, R88). -/
  | sneReg (x y : RegIx)
  /-- Annn LD I, addr, R170. -/
  | ldI (nnn : BitVec 12)
  /-- Bnnn JP V0, addr, R127. -/
  | jpV0 (nnn : BitVec 12)
  /-- Cxkk RND Vx, byte, R155. -/
  | rnd (x : RegIx) (kk : Byte)
  /-- Dxyn DRW Vx, Vy, nibble, R192. -/
  | drw (x y : RegIx) (n : Nibble)
  /-- Ex9E SKP Vx, R210. -/
  | skp (x : RegIx)
  /-- ExA1 SKNP Vx, R212. -/
  | sknp (x : RegIx)
  /-- Fx07 LD Vx, DT, R213. -/
  | ldVxDt (x : RegIx)
  /-- Fx15 LD DT, Vx, R214. -/
  | ldDtVx (x : RegIx)
  /-- Fx0A LD Vx, K, R215. -/
  | ldVxK (x : RegIx)
  /-- Fx1E ADD I, Vx, R171. -/
  | addI (x : RegIx)
  /-- Fx29 LD F, Vx, R172. -/
  | ldF (x : RegIx)
  /-- Fx33 LD B, Vx, R173. -/
  | ldB (x : RegIx)
  /-- Fx55 LD [I], Vx, R174. -/
  | ldMemVx (x : RegIx)
  /-- Fx65 LD Vx, [I], R175. -/
  | ldVxMem (x : RegIx)
  deriving DecidableEq, Repr

/-- The operand fields of a word (30_encoding.md R82). -/
inductive Field where
  | x | y | n | kk | nnn
  deriving DecidableEq, Repr

/-- The width of a field in bits (R82). -/
def Field.width : Field → Nat
  | .x | .y | .n => 4
  | .kk => 8
  | .nnn => 12

/-- The operands an assembler writes for an instruction (30_encoding.md R84, R90), as plain numbers. -/
def Instr.operands : Instr → List (Field × Nat)
  | .cls | .ret => []
  | .jp nnn | .call nnn | .ldI nnn | .jpV0 nnn => [(.nnn, nnn.toNat)]
  | .seImm x kk | .sneImm x kk | .ldImm x kk | .addImm x kk | .rnd x kk =>
      [(.x, x.toNat), (.kk, kk.toNat)]
  | .seReg x y | .sneReg x y | .ldReg x y | .or x y | .and x y | .xor x y | .addReg x y | .sub x y
  | .shr x y | .subn x y | .shl x y => [(.x, x.toNat), (.y, y.toNat)]
  | .drw x y n => [(.x, x.toNat), (.y, y.toNat), (.n, n.toNat)]
  | .skp x | .sknp x | .ldVxDt x | .ldDtVx x | .ldVxK x | .addI x | .ldF x | .ldB x | .ldMemVx x
  | .ldVxMem x => [(.x, x.toNat)]

end Sys2Proof
end

