-- ==== Sys2Proof/WellFormed.lean ====
section
/-! DEFINITION. What is checked before a program runs: the range of each written operand (30_encoding.md
R82, R90) and the length of a program image (70_reset_and_hazards.md R262). An `Instr` carries its operand
ranges in its types, so `Instr.wellFormed` holds of every one (`Sys2Proof.Laws.instr_wellFormed`); the checks
refuse numbers, and images, that no instruction word and no memory can hold. -/

namespace Sys2Proof

/-- A number fits a field exactly when it has no bit above the field's width (R82, R90). -/
def Field.admits (f : Field) (value : Nat) : Bool :=
  decide (value < 2 ^ f.width)

/-- A list of written operands is well-formed when each number fits its field. -/
def operandsWellFormed (ops : List (Field × Nat)) : Bool :=
  ops.all fun o => o.1.admits o.2

/-- Every operand of the instruction fits its field. -/
def Instr.wellFormed (i : Instr) : Bool :=
  operandsWellFormed i.operands

/-- An image is accepted exactly when `0x200 + len <= 4096` (70_reset_and_hazards.md R262). -/
def imageFits (image : List Byte) : Bool :=
  decide (Config.loadBase + image.length ≤ Config.memSize)

end Sys2Proof
end

