-- ==== Sys2Proof/Decode.lean ====
section
/-! DEFINITION. The decoder, total on any word and any bytes (30_encoding.md R80 to R89), then the encoder
written from the same table (R84), and the assembly text of an instruction (R90). The opcode values are the
spec's own choice (D1, from general knowledge): PRESUMED, unsafe, log 1. -/

namespace Sys2Proof

/-- Why a word or a byte sequence is not an instruction. -/
inductive DecodeError where
  /-- The word is no operation of the table (R85 UNKNOWN, R87); it carries the raw word (40_execution_loop.md R104). -/
  | unknownInstruction (w : Word)
  /-- Fewer than the two bytes of an instruction word (R80, R89). -/
  | truncated
  deriving DecidableEq, Repr

/-- `op`, bits 15:12 (R82). -/
def opField (w : Word) : Nibble := (w >>> 12).setWidth 4
/-- `x`, bits 11:8 (R82). -/
def xField (w : Word) : RegIx := (w >>> 8).setWidth 4
/-- `y`, bits 7:4 (R82). -/
def yField (w : Word) : RegIx := (w >>> 4).setWidth 4
/-- `n`, bits 3:0 (R82). -/
def nField (w : Word) : Nibble := w.setWidth 4
/-- `kk`, bits 7:0 (R82). -/
def kkField (w : Word) : Byte := w.setWidth 8
/-- `nnn`, bits 11:0 (R82). -/
def nnnField (w : Word) : BitVec 12 := w.setWidth 12

/-- Group 0x0: matched on the whole word (R85, D2). -/
def decodeGroup0 (w : Word) : Except DecodeError Instr :=
  if w = 0x00E0#16 then .ok .cls
  else if w = 0x00EE#16 then .ok .ret
  else .error (.unknownInstruction w)

/-- Group 0x8: secondary dispatch on the bottom nibble (R85). -/
def decodeGroup8 (w : Word) : Except DecodeError Instr :=
  match nField w with
  | 0x0#4 => .ok (.ldReg (xField w) (yField w))
  | 0x1#4 => .ok (.or (xField w) (yField w))
  | 0x2#4 => .ok (.and (xField w) (yField w))
  | 0x3#4 => .ok (.xor (xField w) (yField w))
  | 0x4#4 => .ok (.addReg (xField w) (yField w))
  | 0x5#4 => .ok (.sub (xField w) (yField w))
  | 0x6#4 => .ok (.shr (xField w) (yField w))
  | 0x7#4 => .ok (.subn (xField w) (yField w))
  | 0xE#4 => .ok (.shl (xField w) (yField w))
  | _ => .error (.unknownInstruction w)

/-- Group 0xE: secondary dispatch on the bottom byte (R85). -/
def decodeGroupE (w : Word) : Except DecodeError Instr :=
  match kkField w with
  | 0x9E#8 => .ok (.skp (xField w))
  | 0xA1#8 => .ok (.sknp (xField w))
  | _ => .error (.unknownInstruction w)

/-- Group 0xF: secondary dispatch on the bottom byte (R85). -/
def decodeGroupF (w : Word) : Except DecodeError Instr :=
  match kkField w with
  | 0x07#8 => .ok (.ldVxDt (xField w))
  | 0x0A#8 => .ok (.ldVxK (xField w))
  | 0x15#8 => .ok (.ldDtVx (xField w))
  | 0x1E#8 => .ok (.addI (xField w))
  | 0x29#8 => .ok (.ldF (xField w))
  | 0x33#8 => .ok (.ldB (xField w))
  | 0x55#8 => .ok (.ldMemVx (xField w))
  | 0x65#8 => .ok (.ldVxMem (xField w))
  | _ => .error (.unknownInstruction w)

/-- `Decode(w)` of 30_encoding.md R85: primary dispatch on the top nibble. -/
def decode (w : Word) : Except DecodeError Instr :=
  match opField w with
  | 0x0#4 => decodeGroup0 w
  | 0x1#4 => .ok (.jp (nnnField w))
  | 0x2#4 => .ok (.call (nnnField w))
  | 0x3#4 => .ok (.seImm (xField w) (kkField w))
  | 0x4#4 => .ok (.sneImm (xField w) (kkField w))
  | 0x5#4 => .ok (.seReg (xField w) (yField w))
  | 0x6#4 => .ok (.ldImm (xField w) (kkField w))
  | 0x7#4 => .ok (.addImm (xField w) (kkField w))
  | 0x8#4 => decodeGroup8 w
  | 0x9#4 => .ok (.sneReg (xField w) (yField w))
  | 0xA#4 => .ok (.ldI (nnnField w))
  | 0xB#4 => .ok (.jpV0 (nnnField w))
  | 0xC#4 => .ok (.rnd (xField w) (kkField w))
  | 0xD#4 => .ok (.drw (xField w) (yField w) (nField w))
  | 0xE#4 => decodeGroupE w
  | 0xF#4 => decodeGroupF w
  | _ => .error (.unknownInstruction w)

/-- The big-endian word of two bytes: the byte at the lower address supplies bits 15:8 (20_memory.md R52). -/
def wordOfBytes (hi lo : Byte) : Word := hi ++ lo

/-- The byte of a word that stands at the lower address. -/
def highByte (w : Word) : Byte := (w >>> 8).setWidth 8

/-- The byte of a word that stands at the higher address. -/
def lowByte (w : Word) : Byte := w.setWidth 8

/-- Decode the first instruction of a byte sequence; every instruction is 2 bytes (R80, R89). -/
def decodeBytes : List Byte → Except DecodeError (Instr × List Byte)
  | hi :: lo :: rest => (decode (wordOfBytes hi lo)).map fun i => (i, rest)
  | _ => .error .truncated

/-- Format Z and A: op and a 12-bit rest (R84). -/
def wordA (op : Nibble) (nnn : BitVec 12) : Word := op ++ nnn
/-- Format XK and XF: op, x and a byte (R84). -/
def wordXK (op : Nibble) (x : RegIx) (kk : Byte) : Word := op ++ x ++ kk
/-- Format XY and XYN: op, x, y and a nibble (R84). -/
def wordXYN (op : Nibble) (x y : RegIx) (n : Nibble) : Word := op ++ x ++ y ++ n

/-- The word of an instruction (R84, R91). SE Vx, Vy and SNE Vx, Vy assemble with n = 0 (R90). -/
def encode : Instr → Word
  | .cls => wordA 0x0 0x0E0
  | .ret => wordA 0x0 0x0EE
  | .jp nnn => wordA 0x1 nnn
  | .call nnn => wordA 0x2 nnn
  | .seImm x kk => wordXK 0x3 x kk
  | .sneImm x kk => wordXK 0x4 x kk
  | .seReg x y => wordXYN 0x5 x y 0x0
  | .ldImm x kk => wordXK 0x6 x kk
  | .addImm x kk => wordXK 0x7 x kk
  | .ldReg x y => wordXYN 0x8 x y 0x0
  | .or x y => wordXYN 0x8 x y 0x1
  | .and x y => wordXYN 0x8 x y 0x2
  | .xor x y => wordXYN 0x8 x y 0x3
  | .addReg x y => wordXYN 0x8 x y 0x4
  | .sub x y => wordXYN 0x8 x y 0x5
  | .shr x y => wordXYN 0x8 x y 0x6
  | .subn x y => wordXYN 0x8 x y 0x7
  | .shl x y => wordXYN 0x8 x y 0xE
  | .sneReg x y => wordXYN 0x9 x y 0x0
  | .ldI nnn => wordA 0xA nnn
  | .jpV0 nnn => wordA 0xB nnn
  | .rnd x kk => wordXK 0xC x kk
  | .drw x y n => wordXYN 0xD x y n
  | .skp x => wordXK 0xE x 0x9E
  | .sknp x => wordXK 0xE x 0xA1
  | .ldVxDt x => wordXK 0xF x 0x07
  | .ldDtVx x => wordXK 0xF x 0x15
  | .ldVxK x => wordXK 0xF x 0x0A
  | .addI x => wordXK 0xF x 0x1E
  | .ldF x => wordXK 0xF x 0x29
  | .ldB x => wordXK 0xF x 0x33
  | .ldMemVx x => wordXK 0xF x 0x55
  | .ldVxMem x => wordXK 0xF x 0x65

/-- The bytes of an instruction as memory holds them, lowest address first (20_memory.md R52). -/
def encodeBytes (i : Instr) : List Byte := [highByte (encode i), lowByte (encode i)]

/-- The row of spec/opcode_table.json an instruction stands for: its match value and its mask. -/
def tableRow : Instr → Word × Word
  | .cls => (0x00E0#16, 0xFFFF#16)
  | .ret => (0x00EE#16, 0xFFFF#16)
  | .jp _ => (0x1000#16, 0xF000#16)
  | .call _ => (0x2000#16, 0xF000#16)
  | .seImm _ _ => (0x3000#16, 0xF000#16)
  | .sneImm _ _ => (0x4000#16, 0xF000#16)
  | .seReg _ _ => (0x5000#16, 0xF000#16)
  | .ldImm _ _ => (0x6000#16, 0xF000#16)
  | .addImm _ _ => (0x7000#16, 0xF000#16)
  | .ldReg _ _ => (0x8000#16, 0xF00F#16)
  | .or _ _ => (0x8001#16, 0xF00F#16)
  | .and _ _ => (0x8002#16, 0xF00F#16)
  | .xor _ _ => (0x8003#16, 0xF00F#16)
  | .addReg _ _ => (0x8004#16, 0xF00F#16)
  | .sub _ _ => (0x8005#16, 0xF00F#16)
  | .shr _ _ => (0x8006#16, 0xF00F#16)
  | .subn _ _ => (0x8007#16, 0xF00F#16)
  | .shl _ _ => (0x800E#16, 0xF00F#16)
  | .sneReg _ _ => (0x9000#16, 0xF000#16)
  | .ldI _ => (0xA000#16, 0xF000#16)
  | .jpV0 _ => (0xB000#16, 0xF000#16)
  | .rnd _ _ => (0xC000#16, 0xF000#16)
  | .drw _ _ _ => (0xD000#16, 0xF000#16)
  | .skp _ => (0xE09E#16, 0xF0FF#16)
  | .sknp _ => (0xE0A1#16, 0xF0FF#16)
  | .ldVxDt _ => (0xF007#16, 0xF0FF#16)
  | .ldDtVx _ => (0xF015#16, 0xF0FF#16)
  | .ldVxK _ => (0xF00A#16, 0xF0FF#16)
  | .addI _ => (0xF01E#16, 0xF0FF#16)
  | .ldF _ => (0xF029#16, 0xF0FF#16)
  | .ldB _ => (0xF033#16, 0xF0FF#16)
  | .ldMemVx _ => (0xF055#16, 0xF0FF#16)
  | .ldVxMem _ => (0xF065#16, 0xF0FF#16)

/-- What this decoder reads from an instruction of `nbits` bits whose bits are `w`: the word is laid out as
memory holds it, high byte first (20_memory.md R52), and given to `decodeBytes`. -/
def decodeTableWord (nbits w : Nat) : Option Instr :=
  let word : Word := BitVec.ofNat 16 (w % 2 ^ nbits)
  match decodeBytes [highByte word, lowByte word] with
  | .ok (i, _) => some i
  | .error _ => none

/-- The digits of `v` in base 16, `n` of them, most significant first, letters in capitals. -/
def hexDigits : Nat → Nat → List Char
  | 0, _ => []
  | n + 1, v => hexDigits n (v / 16) ++ [(Nat.digitChar (v % 16)).toUpper]

/-- A number as R90 writes it: hexadecimal with a 0x prefix. -/
def asmNumber (digits v : Nat) : String := "0x" ++ String.ofList (hexDigits digits v)

/-- A register as R90 writes it: V and one hexadecimal digit. -/
def asmReg (r : RegIx) : String := "V" ++ String.ofList (hexDigits 1 r.toNat)

/-- The assembly text of an instruction (30_encoding.md R90). SHR and SHL name Vy, which the word holds. -/
def asm : Instr → String
  | .cls => "CLS"
  | .ret => "RET"
  | .jp nnn => "JP " ++ asmNumber 3 nnn.toNat
  | .call nnn => "CALL " ++ asmNumber 3 nnn.toNat
  | .seImm x kk => "SE " ++ asmReg x ++ ", " ++ asmNumber 2 kk.toNat
  | .sneImm x kk => "SNE " ++ asmReg x ++ ", " ++ asmNumber 2 kk.toNat
  | .seReg x y => "SE " ++ asmReg x ++ ", " ++ asmReg y
  | .ldImm x kk => "LD " ++ asmReg x ++ ", " ++ asmNumber 2 kk.toNat
  | .addImm x kk => "ADD " ++ asmReg x ++ ", " ++ asmNumber 2 kk.toNat
  | .ldReg x y => "LD " ++ asmReg x ++ ", " ++ asmReg y
  | .or x y => "OR " ++ asmReg x ++ ", " ++ asmReg y
  | .and x y => "AND " ++ asmReg x ++ ", " ++ asmReg y
  | .xor x y => "XOR " ++ asmReg x ++ ", " ++ asmReg y
  | .addReg x y => "ADD " ++ asmReg x ++ ", " ++ asmReg y
  | .sub x y => "SUB " ++ asmReg x ++ ", " ++ asmReg y
  | .shr x y => "SHR " ++ asmReg x ++ ", " ++ asmReg y
  | .subn x y => "SUBN " ++ asmReg x ++ ", " ++ asmReg y
  | .shl x y => "SHL " ++ asmReg x ++ ", " ++ asmReg y
  | .sneReg x y => "SNE " ++ asmReg x ++ ", " ++ asmReg y
  | .ldI nnn => "LD I, " ++ asmNumber 3 nnn.toNat
  | .jpV0 nnn => "JP V0, " ++ asmNumber 3 nnn.toNat
  | .rnd x kk => "RND " ++ asmReg x ++ ", " ++ asmNumber 2 kk.toNat
  | .drw x y n => "DRW " ++ asmReg x ++ ", " ++ asmReg y ++ ", " ++ asmNumber 1 n.toNat
  | .skp x => "SKP " ++ asmReg x
  | .sknp x => "SKNP " ++ asmReg x
  | .ldVxDt x => "LD " ++ asmReg x ++ ", DT"
  | .ldDtVx x => "LD DT, " ++ asmReg x
  | .ldVxK x => "LD " ++ asmReg x ++ ", K"
  | .addI x => "ADD I, " ++ asmReg x
  | .ldF x => "LD F, " ++ asmReg x
  | .ldB x => "LD B, " ++ asmReg x
  | .ldMemVx x => "LD [I], " ++ asmReg x
  | .ldVxMem x => "LD " ++ asmReg x ++ ", [I]"

end Sys2Proof
end

