-- ==== Sys2Proof/Machine/State.lean ====
section
/-! DEFINITION. The state of the core (10_state.md): the tuple
`(V[0..15], PC, I, DT, ST, S[0..15], SP, FB, M[0..4095], STATUS)`, the ports of R40 that hold a value, and the
model's own two fields, `turns` and `draws`. -/

namespace Sys2Proof.Machine

/-- The fault kinds of 60_exceptions.md R230. -/
inductive FaultKind where
  /-- An access at an address of 4096 or more: fetch, DRW, LD B, LD [I] Vx, LD Vx [I]. -/
  | outOfBoundsMemoryAccess
  /-- CALL on a full stack. -/
  | stackOverflow
  /-- RET on an empty stack. -/
  | stackUnderflow
  /-- A fetched word that decodes to UNKNOWN. -/
  | unknownInstruction
  /-- The Loader: the image is longer than 3584 bytes. -/
  | loadTooLarge
  deriving DecidableEq, Repr

/-- A fault kind with its recorded info (R230): an address, a return address, 0, a raw word or a length. -/
structure FaultCause where
  kind : FaultKind
  info : Nat
  deriving DecidableEq, Repr

/-- STATUS (10_state.md R34). -/
inductive Status where
  /-- The loop fetches the next instruction. -/
  | run
  /-- Suspended in LD Vx, K, with the destination register's index. -/
  | waitKey (x : RegIx)
  /-- Fatal stop. -/
  | fault (cause : FaultCause)
  deriving DecidableEq, Repr

/-- One move of an agent (60_exceptions.md R242): the indivisible steps a run is a sequence of. -/
inductive Turn where
  /-- The execution engine's step (40_execution_loop.md R101). -/
  | engine
  /-- A `tick` event: one step of the timer clock (60_exceptions.md R240). -/
  | tick
  /-- A `key_press` event with a key code (10_state.md R42). -/
  | keyPress (k : Nibble)
  /-- The host changes the level of the `key_down` port (10_state.md R41). -/
  | setKeys (down : BitVec 16)
  /-- The host presents a byte at the `rng` port (10_state.md R43). -/
  | presentRandom (b : Byte)
  deriving DecidableEq, Repr

/-- The framebuffer: 32 rows of 64 pixels, row `y`, column `x` (10_state.md R31). -/
abbrev FrameBuffer := Vector (Vector Bool Config.fbWidth) Config.fbHeight

/-- Memory: the bytes that differ from the reset content, as (address, byte) pairs, addresses rising
(10_state.md R32). The canonical form is `Memory.wf`. -/
abbrev Memory := List Host.Cell

/-- The state of the core. -/
structure State where
  /-- V0..VF (R20). -/
  v : Vector Byte Config.numRegs
  /-- PC (R23). -/
  pc : Word
  /-- I (R25). -/
  i : Word
  /-- DT (R26). -/
  dt : Byte
  /-- ST (R27). -/
  st : Byte
  /-- S[0..15] (R28). -/
  stack : Vector Word Config.stackDepth
  /-- SP, the number of valid entries (R28). -/
  sp : Nat
  /-- FB (R31). -/
  fb : FrameBuffer
  /-- M (R32). -/
  mem : Memory
  /-- STATUS (R34). -/
  status : Status
  /-- The framebuffer last published on `fb_snapshot` (R46). -/
  snapshot : FrameBuffer
  /-- The present level of the `key_down` input (R41). -/
  keyDown : BitVec 16
  /-- The bytes presented at the `rng` input and not yet consumed, oldest first (R43). -/
  rng : List Byte
  /-- The model's own: the moves still to come, the next one first; when empty the engine moves (log 2). -/
  turns : List Turn
  /-- The model's own: how many free values have been drawn (log 8). -/
  draws : Nat
  deriving DecidableEq, Repr

/-- Why the machine stops. -/
inductive Fault where
  /-- Raised by `step` in every state whose STATUS is FAULT: no agent of the core takes a step
  (40_execution_loop.md R109, 60_exceptions.md R234). The state with that STATUS is the last one. Safe. Log 9. -/
  | stopped (cause : FaultCause)
  deriving DecidableEq, Repr

/-- Why the model gives no meaning. -/
inductive Refusal where
  /-- An instruction without a meaning yet, by its mnemonic. Raised by no arm of `exec`: every instruction has
  its meaning. Safe. -/
  | notModelled (mnemonic : String)
  deriving DecidableEq, Repr

/-- The all-zero framebuffer (10_state.md R38). -/
def blankScreen : FrameBuffer :=
  Vector.replicate Config.fbHeight (Vector.replicate Config.fbWidth false)

/-- The state after reset, with no program loaded (10_state.md R38, 70_reset_and_hazards.md R260). The stack
slots (log 5), the key level (log 6), the list of random bytes (log 7), `turns` (log 2) and `draws` (log 8) are
DESIGN CHOICES. -/
def State.reset : State where
  v := Vector.replicate Config.numRegs 0
  pc := 0x0200
  i := 0
  dt := 0
  st := 0
  stack := Vector.replicate Config.stackDepth 0
  sp := 0
  fb := blankScreen
  mem := []
  status := .run
  snapshot := blankScreen
  keyDown := 0
  rng := []
  turns := []
  draws := 0

end Sys2Proof.Machine
end

