-- ==== Sys2Proof/Machine/Framebuffer.lean ====
section
/-! DEFINITION. The framebuffer core (10_state.md R31, 44_display.md R190, R191). -/

namespace Sys2Proof.Machine

/-- `FB[y][x]`: column `x`, row `y`. Outside the grid there is no pixel, and none is ever asked for. -/
def pixel (fb : FrameBuffer) (x y : Nat) : Bool := (fb[y]?.bind fun row => row[x]?).getD false

/-- `FB[y][x] <- FB[y][x] XOR 1`. -/
def togglePixel (fb : FrameBuffer) (x y : Nat) : FrameBuffer :=
  if h : y < Config.fbHeight then fb.set y (fb[y].setIfInBounds x (!pixel fb x y)) h else fb

/-- One bit of a sprite row at a column (R191): a column past 63 is discarded, a 0 bit leaves its pixel, a 1 bit
toggles it and collides when the pixel was set. -/
def drawBit (col row : Nat) (bit : Bool) (p : FrameBuffer × Bool) : FrameBuffer × Bool :=
  if bit && decide (col < Config.fbWidth) then (togglePixel p.1 col row, p.2 || pixel p.1 col row) else p

/-- One sprite row (R191): bits from bit 7 to bit 0, at columns `x0`, `x0 + 1`, ..., `x0 + 7`. -/
def drawRow (x0 row : Nat) (b : Byte) (p : FrameBuffer × Bool) : FrameBuffer × Bool :=
  (List.range 8).foldl (fun q j => drawBit (x0 + j) row (b.getLsbD (7 - j)) q) p

/-- The sprite rows from `row` downward (R191): the first row past 31 ends the drawing. -/
def drawRows (x0 : Nat) : (row : Nat) → List Byte → FrameBuffer × Bool → FrameBuffer × Bool
  | _, [], p => p
  | row, b :: bs, p => if row < Config.fbHeight then drawRows x0 (row + 1) bs (drawRow x0 row b p) else p

/-- `Draw(x0, y0, bytes)` (R191): the start row is reduced modulo 32, the start column is not reduced (D14).
Answers the new framebuffer and the collision. -/
def draw (fb : FrameBuffer) (x0 y0 : Byte) (bytes : List Byte) : FrameBuffer × Bool :=
  drawRows x0.toNat (y0.toNat % Config.fbHeight) bytes (fb, false)

end Sys2Proof.Machine
end

