-- ==== Sys2Proof/Machine/Memory.lean ====
section
/-! DEFINITION. Memory (10_state.md R32, R33; 20_memory.md): what an unlisted address reads as, the read and
the write of one byte in the canonical form, the checked accesses `MemRead` and `MemWrite` (00_scope.md R11)
and the byte sequences instructions read and write. -/

namespace Sys2Proof.Machine

/-- What an address reads as that nothing has written: the reset content, glyphs at 0x000..0x04F (R33) and zero
elsewhere (R38, R59; the zeros are the spec's decision D19). DESIGN CHOICE of the spec, unsafe, logs 3 and 4. -/
def initialByte (a : Nat) : Byte := (Config.glyphRom[a]?).getD 0

/-- The byte at an address, `M[a]`. -/
def Memory.read : Memory → Nat → Byte
  | [], a => initialByte a
  | (k, b) :: rest, a => if k = a then b else Memory.read rest a

/-- Put a byte in front of the entries of higher addresses, unless an unlisted address reads the same. -/
def Memory.cons (a : Nat) (b : Byte) (rest : Memory) : Memory :=
  if b = initialByte a then rest else (a, b) :: rest

/-- `M[a] <- b`, keeping addresses rising and no entry equal to the reset content. -/
def Memory.write : Memory → Nat → Byte → Memory
  | [], a, b => Memory.cons a b []
  | (k, c) :: rest, a, b =>
    if a < k then Memory.cons a b ((k, c) :: rest)
    else if a = k then Memory.cons a b rest
    else (k, c) :: Memory.write rest a b

/-- The canonical form from address `lo` on. -/
def Memory.wfFrom : Nat → Memory → Bool
  | _, [] => true
  | lo, (k, b) :: rest =>
    decide (lo ≤ k) && decide (k < Config.memSize) && !decide (b = initialByte k) && Memory.wfFrom (k + 1) rest

/-- The canonical form: addresses strictly rising, all below 4096, no entry equal to what an unlisted address
reads as. Equal memories in this form are equal lists. -/
def Memory.wf (m : Memory) : Bool := Memory.wfFrom 0 m

/-- The fault of an access at an address outside memory; its info is that address (20_memory.md R51). -/
def accessFault (a : Nat) : FaultCause := ⟨.outOfBoundsMemoryAccess, a⟩

/-- `MemRead(addr, 1)` (00_scope.md R11): the check is on the full address, never truncated (20_memory.md R51). -/
def memRead (m : Memory) (a : Nat) : Except FaultCause Byte :=
  if a < Config.memSize then .ok (Memory.read m a) else .error (accessFault a)

/-- `MemWrite(addr, 1, v)` (00_scope.md R11). -/
def memWrite (m : Memory) (a : Nat) (b : Byte) : Except FaultCause Memory :=
  if a < Config.memSize then .ok (Memory.write m a b) else .error (accessFault a)

/-- `count` byte reads from `a` upward (20_memory.md R56): the bytes read before the first failing access, and
its fault if there is one. -/
def readSeq (m : Memory) : (a count : Nat) → List Byte × Option FaultCause
  | _, 0 => ([], none)
  | a, count + 1 =>
    match memRead m a with
    | .error c => ([], some c)
    | .ok b => (b :: (readSeq m (a + 1) count).1, (readSeq m (a + 1) count).2)

/-- Byte writes from `a` upward (20_memory.md R56), up to the first failing access, and its fault if there is
one. `lands k` says whether the `k`-th write is seen in the result. -/
def writeSeq (lands : Nat → Bool) : (k a : Nat) → List Byte → Memory → Memory × Option FaultCause
  | _, _, [], m => (m, none)
  | k, a, b :: bs, m =>
    match memWrite m a b with
    | .error c => (m, some c)
    | .ok m' => writeSeq lands (k + 1) (a + 1) bs (if lands k then m' else m)

/-- Every write is seen. -/
def allLand (_ : Nat) : Bool := true

end Sys2Proof.Machine
end

