-- ==== Sys2Proof/Machine/Ops.lean ====
section
/-! DEFINITION. The named operations over the state: one home for each register's reads and writes, the stack
primitives, the fatal stop, the free draws and the framebuffer's publication. -/

namespace Sys2Proof.Machine

/-- `V[r]` (10_state.md R20). -/
def State.reg (s : State) (r : RegIx) : Byte := s.v[r.toNat]'(r.isLt)

/-- `V[r] <- b` (00_scope.md R10). -/
def State.setReg (s : State) (r : RegIx) (b : Byte) : State := { s with v := s.v.set r.toNat b r.isLt }

/-- `PC <- a`. -/
def State.setPc (s : State) (a : Word) : State := { s with pc := a }

/-- `I <- a`. -/
def State.setI (s : State) (a : Word) : State := { s with i := a }

/-- `DT <- b`. -/
def State.setDt (s : State) (b : Byte) : State := { s with dt := b }

/-- `ST <- b`. -/
def State.setSt (s : State) (b : Byte) : State := { s with st := b }

/-- `S[k] <- a` (10_state.md R28). -/
def State.setSlot (s : State) (k : Nat) (a : Word) : State := { s with stack := s.stack.setIfInBounds k a }

/-- `SP <- n`. -/
def State.setSp (s : State) (n : Nat) : State := { s with sp := n }

/-- Replace memory. -/
def State.setMem (s : State) (m : Memory) : State := { s with mem := m }

/-- `STATUS <- x`. -/
def State.setStatus (s : State) (x : Status) : State := { s with status := x }

/-- Write the framebuffer and publish it whole on `fb_snapshot` (44_display.md R194). -/
def State.publish (s : State) (f : FrameBuffer) : State := { s with fb := f, snapshot := f }

/-- The level of the `key_down` port changes. -/
def State.setKeyDown (s : State) (k : BitVec 16) : State := { s with keyDown := k }

/-- The bytes waiting at the `rng` port change. -/
def State.setRng (s : State) (bs : List Byte) : State := { s with rng := bs }

/-- The moves still to come change. -/
def State.setTurns (s : State) (ts : List Turn) : State := { s with turns := ts }

/-- One more free value has been drawn. -/
def State.nextDraw (s : State) : State := { s with draws := s.draws + 1 }

/-- `S[k]`. A slot index is below 16 wherever the stack primitives read one. -/
def State.slot (s : State) (k : Nat) : Word := (s.stack[k]?).getD 0

/-- `M[a]`, read of one byte. -/
def State.byteAt (s : State) (a : Nat) : Byte := Memory.read s.mem a

/-- The fault code of 60_exceptions.md R230 (D22). -/
def FaultKind.code : FaultKind → Nat
  | .outOfBoundsMemoryAccess => 1
  | .stackOverflow => 2
  | .stackUnderflow => 3
  | .unknownInstruction => 4
  | .loadTooLarge => 5

/-- `raise K(info)`: taking a fault is `STATUS <- FAULT(K, info)` and nothing else (60_exceptions.md R232). There
is no return from it (R234), so no operation beside it. -/
def raise (c : FaultCause) (s : State) : State := s.setStatus (.fault c)

/-- `Push(v)` (10_state.md R29): the check comes before any write. -/
def push (a : Word) (s : State) : Except FaultCause State :=
  if s.sp < Config.stackDepth then .ok ((s.setSlot s.sp a).setSp (s.sp + 1))
  else .error ⟨.stackOverflow, a.toNat⟩

/-- `Pop()` (10_state.md R30): the popped value and the state after. -/
def pop (s : State) : Except FaultCause (Word × State) :=
  match s.sp with
  | 0 => .error ⟨.stackUnderflow, 0⟩
  | n + 1 => .ok (s.slot n, s.setSp n)

/-- `Skip(c)` (40_execution_loop.md R106). -/
def skip (c : Bool) (s : State) : State := if c then s.setPc (s.pc + 2) else s

/-- `RandomByte()` (10_state.md R43): the oldest byte presented at the port, or a free value where none is. -/
def randomByte (s : State) : Byte × State :=
  match s.rng with
  | b :: rest => (b, s.setRng rest)
  | [] => (Config.randomByte s.draws, s.nextDraw)

/-- `KeyDown(k)` (10_state.md R41): bit `k` of the port; for `k` above 15 a free Boolean (45_timers_input.md R211). -/
def keyDown (k : Byte) (s : State) : Bool × State :=
  if k.toNat < Config.numKeys then (s.keyDown.getLsbD k.toNat, s)
  else (Config.keyDownAbove15 s.draws, s.nextDraw)

/-- The byte writes of LD B and LD [I], Vx. When one fails, each of the writes before it is seen or not as a free
value says (60_exceptions.md R233, D23), and the fault is raised. -/
def storeSeq (a : Nat) (bytes : List Byte) (s : State) : State :=
  match writeSeq allLand 0 a bytes s.mem with
  | (m, none) => s.setMem m
  | (_, some c) =>
    raise c (s.setMem (writeSeq (Config.partialEffect s.draws) 0 a bytes s.mem).1).nextDraw

/-- Write bytes to V[k], V[k+1], ...; `lands j` says whether the write of V[j] is seen. -/
def loadRegs (lands : Nat → Bool) : (k : Nat) → List Byte → State → State
  | _, [], s => s
  | k, b :: bs, s => loadRegs lands (k + 1) bs (if lands k then s.setReg (BitVec.ofNat 4 k) b else s)

/-- The byte reads of LD Vx, [I], each into its register. When one fails, each of the registers before it is
written or not as a free value says (60_exceptions.md R233, D23), and the fault is raised. -/
def loadSeq (a count : Nat) (s : State) : State :=
  match readSeq s.mem a count with
  | (bytes, none) => loadRegs allLand 0 bytes s
  | (bytes, some c) => raise c (loadRegs (Config.partialEffect s.draws) 0 bytes s).nextDraw

/-- `FetchWord(pc)` (20_memory.md R53): big-endian word and the PC after it, or the fault of the first byte out
of bounds. -/
def fetchWord (s : State) : Except FaultCause (Word × Word) :=
  match memRead s.mem s.pc.toNat with
  | .error c => .error c
  | .ok hi =>
    match memRead s.mem (s.pc.toNat + 1) with
    | .error c => .error c
    | .ok lo => .ok (wordOfBytes hi lo, s.pc + 2)

end Sys2Proof.Machine
end

