-- ==== Sys2Proof/Machine/Flags.lean ====
section
/-! DEFINITION. The flag VF (10_state.md R35): every value written to it, and the order of the flag's write and
the destination's (42_alu.md R141). -/

namespace Sys2Proof.Machine

/-- Flag values are exactly 0x00 and 0x01 (42_alu.md R148). -/
def flagByte (c : Bool) : Byte := if c then 1 else 0

/-- Carry of ADD Vx, Vy: the unclamped sum exceeds 255 (R150). -/
def carryFlag (a b : Byte) : Byte := flagByte (decide (255 < a.toNat + b.toNat))

/-- No borrow of SUB and SUBN: minuend at least subtrahend (R151, R153). -/
def noBorrowFlag (minuend subtrahend : Byte) : Byte := flagByte (decide (subtrahend.toNat ≤ minuend.toNat))

/-- The bit SHR shifts out (R152). -/
def lowBitFlag (a : Byte) : Byte := flagByte (a.getLsbD 0)

/-- The bit SHL shifts out (R154). -/
def highBitFlag (a : Byte) : Byte := flagByte (a.getLsbD 7)

/-- VF first, then Vx (R141; the order is the literal one of the source, D6): with x = F the flag is lost. -/
def setFlagThenReg (x : RegIx) (result flag : Byte) (s : State) : State :=
  (s.setReg Config.flagReg flag).setReg x result

end Sys2Proof.Machine
end

