-- ==== Sys2Proof/Machine/Operands.lean ====
section
/-! DEFINITION. The operand forms (30_encoding.md R83; 43_index_memory.md): zero-extended addresses, the jump
offset, the index register plus a small offset, the glyph address, the decimal digits, the block V0..Vx. -/

namespace Sys2Proof.Machine

/-- `zext_16(nnn)` (R83). -/
def addrOperand (nnn : BitVec 12) : Word := nnn.setWidth 16

/-- `trunc_16(zext_16(nnn) + base)`: the sum is not masked to 12 bits (41_control_flow.md R127, D9). -/
def offsetTarget (nnn : BitVec 12) (base : Byte) : Word := addrOperand nnn + base.setWidth 16

/-- `trunc_16(I + a)` (43_index_memory.md R171). -/
def indexPlus (i : Word) (a : Byte) : Word := i + a.setWidth 16

/-- The address `I`, where accesses `I + k` start; `I + k` is not truncated (43_index_memory.md, opening). -/
def indexBase (s : State) : Nat := s.i.toNat

/-- The address of the glyph of the low nibble of a value, `5 * (v AND 0x0F)` (43_index_memory.md R172, D11). -/
def glyphAddress (v : Byte) : Word := BitVec.ofNat 16 (Config.glyphSize * (v &&& 0x0F#8).toNat)

/-- The hundreds, tens and units digits of a value (43_index_memory.md R173). -/
def bcdDigits (v : Byte) : List Byte :=
  [BitVec.ofNat 8 (v.toNat / 100), BitVec.ofNat 8 (v.toNat / 10 % 10), BitVec.ofNat 8 (v.toNat % 10)]

/-- How many registers the block V0..Vx holds (43_index_memory.md R174, R175: inclusive). -/
def blockLength (x : RegIx) : Nat := x.toNat + 1

/-- The values of V0..Vx in order (43_index_memory.md R174). -/
def blockRegs (x : RegIx) (s : State) : List Byte :=
  (List.range (blockLength x)).map fun k => s.reg (BitVec.ofNat 4 k)

end Sys2Proof.Machine
end

