-- ==== Sys2Proof/Machine/Alu.lean ====
section
/-! DEFINITION. The register and ALU instructions (42_alu.md). Results are truncated to 8 bits and nothing is
signed (R140); operands are read before any write (40_execution_loop.md R105). -/

namespace Sys2Proof.Machine

/-- LD Vx, byte (R142). -/
def execLdImm (x : RegIx) (kk : Byte) (s : State) : Host.Outcome State Fault Refusal :=
  .next (s.setReg x kk)

/-- ADD Vx, byte (R143): no flag (D7). -/
def execAddImm (x : RegIx) (kk : Byte) (s : State) : Host.Outcome State Fault Refusal :=
  .next (s.setReg x (s.reg x + kk))

/-- LD Vx, Vy (R144). -/
def execLdReg (x y : RegIx) (s : State) : Host.Outcome State Fault Refusal :=
  .next (s.setReg x (s.reg y))

/-- OR Vx, Vy (R145): no flag (D8). -/
def execOr (x y : RegIx) (s : State) : Host.Outcome State Fault Refusal :=
  .next (s.setReg x (s.reg x ||| s.reg y))

/-- AND Vx, Vy (R146): no flag (D8). -/
def execAnd (x y : RegIx) (s : State) : Host.Outcome State Fault Refusal :=
  .next (s.setReg x (s.reg x &&& s.reg y))

/-- XOR Vx, Vy (R147): no flag (D8). -/
def execXor (x y : RegIx) (s : State) : Host.Outcome State Fault Refusal :=
  .next (s.setReg x (s.reg x ^^^ s.reg y))

/-- ADD Vx, Vy (R150). -/
def execAddReg (x y : RegIx) (s : State) : Host.Outcome State Fault Refusal :=
  .next (setFlagThenReg x (s.reg x + s.reg y) (carryFlag (s.reg x) (s.reg y)) s)

/-- SUB Vx, Vy (R151). -/
def execSub (x y : RegIx) (s : State) : Host.Outcome State Fault Refusal :=
  .next (setFlagThenReg x (s.reg x - s.reg y) (noBorrowFlag (s.reg x) (s.reg y)) s)

/-- SHR Vx (R152): the operand is Vx, Vy is not used (D5). -/
def execShr (x _y : RegIx) (s : State) : Host.Outcome State Fault Refusal :=
  .next (setFlagThenReg x (s.reg x >>> 1) (lowBitFlag (s.reg x)) s)

/-- SUBN Vx, Vy (R153): the minuend is Vy (D38). -/
def execSubn (x y : RegIx) (s : State) : Host.Outcome State Fault Refusal :=
  .next (setFlagThenReg x (s.reg y - s.reg x) (noBorrowFlag (s.reg y) (s.reg x)) s)

/-- SHL Vx (R154): the operand is Vx, Vy is not used (D5). -/
def execShl (x _y : RegIx) (s : State) : Host.Outcome State Fault Refusal :=
  .next (setFlagThenReg x (s.reg x <<< 1) (highBitFlag (s.reg x)) s)

/-- RND Vx, byte (R155). -/
def execRnd (x : RegIx) (kk : Byte) (s : State) : Host.Outcome State Fault Refusal :=
  .next ((randomByte s).2.setReg x ((randomByte s).1 &&& kk))

end Sys2Proof.Machine
end

