-- ==== Sys2Proof/Machine/ControlFlow.lean ====
section
/-! DEFINITION. The control-flow instructions (41_control_flow.md). On entry PC is the instruction's address
plus 2 (40_execution_loop.md R101). -/

namespace Sys2Proof.Machine

/-- RET (R120). -/
def execRet (s : State) : Host.Outcome State Fault Refusal :=
  match pop s with
  | .error c => .next (raise c s)
  | .ok (a, t) => .next (t.setPc a)

/-- JP addr (R121). -/
def execJp (nnn : BitVec 12) (s : State) : Host.Outcome State Fault Refusal :=
  .next (s.setPc (addrOperand nnn))

/-- CALL addr (R122): pushes PC, which the fetch has already advanced. -/
def execCall (nnn : BitVec 12) (s : State) : Host.Outcome State Fault Refusal :=
  match push s.pc s with
  | .error c => .next (raise c s)
  | .ok t => .next (t.setPc (addrOperand nnn))

/-- SE Vx, byte (R123). -/
def execSeImm (x : RegIx) (kk : Byte) (s : State) : Host.Outcome State Fault Refusal :=
  .next (skip (s.reg x == kk) s)

/-- SNE Vx, byte (R124). -/
def execSneImm (x : RegIx) (kk : Byte) (s : State) : Host.Outcome State Fault Refusal :=
  .next (skip (s.reg x != kk) s)

/-- SE Vx, Vy (R125). -/
def execSeReg (x y : RegIx) (s : State) : Host.Outcome State Fault Refusal :=
  .next (skip (s.reg x == s.reg y) s)

/-- SNE Vx, Vy (R126). -/
def execSneReg (x y : RegIx) (s : State) : Host.Outcome State Fault Refusal :=
  .next (skip (s.reg x != s.reg y) s)

/-- JP V0, addr (R127). The register V0 is the spec's general knowledge (D9): PRESUMED, unsafe, log 1. -/
def execJpV0 (nnn : BitVec 12) (s : State) : Host.Outcome State Fault Refusal :=
  .next (s.setPc (offsetTarget nnn (s.reg 0)))

end Sys2Proof.Machine
end

