-- ==== Sys2Proof/Machine/Display.lean ====
section
/-! DEFINITION. The display instructions (44_display.md). -/

namespace Sys2Proof.Machine

/-- CLS (R193): every pixel 0 (R190), and a snapshot is published (R194). -/
def execCls (s : State) : Host.Outcome State Fault Refusal :=
  .next (s.publish blankScreen)

/-- DRW Vx, Vy, nibble (R192): all n bytes are read first, a failing read changes no pixel and publishes nothing
(D15, R194); then the draw, the publication, and VF from the collision. -/
def execDrw (x y : RegIx) (n : Nibble) (s : State) : Host.Outcome State Fault Refusal :=
  match readSeq s.mem (indexBase s) n.toNat with
  | (_, some c) => .next (raise c s)
  | (bytes, none) =>
    let d := draw s.fb (s.reg x) (s.reg y) bytes
    .next ((s.publish d.1).setReg Config.flagReg (flagByte d.2))

end Sys2Proof.Machine
end

