-- ==== Sys2Proof/Machine/IndexMemory.lean ====
section
/-! DEFINITION. The index-register and memory instructions (43_index_memory.md). None changes I as a side
effect of an access (D13). -/

namespace Sys2Proof.Machine

/-- LD I, addr (R170). -/
def execLdI (nnn : BitVec 12) (s : State) : Host.Outcome State Fault Refusal :=
  .next (s.setI (addrOperand nnn))

/-- ADD I, Vx (R171): no flag (D10). -/
def execAddI (x : RegIx) (s : State) : Host.Outcome State Fault Refusal :=
  .next (s.setI (indexPlus s.i (s.reg x)))

/-- LD F, Vx (R172). -/
def execLdF (x : RegIx) (s : State) : Host.Outcome State Fault Refusal :=
  .next (s.setI (glyphAddress (s.reg x)))

/-- LD B, Vx (R173). -/
def execLdB (x : RegIx) (s : State) : Host.Outcome State Fault Refusal :=
  .next (storeSeq (indexBase s) (bcdDigits (s.reg x)) s)

/-- LD [I], Vx (R174). -/
def execLdMemVx (x : RegIx) (s : State) : Host.Outcome State Fault Refusal :=
  .next (storeSeq (indexBase s) (blockRegs x s) s)

/-- LD Vx, [I] (R175). -/
def execLdVxMem (x : RegIx) (s : State) : Host.Outcome State Fault Refusal :=
  .next (loadSeq (indexBase s) (blockLength x) s)

end Sys2Proof.Machine
end

