-- ==== Sys2Proof/Machine/TimersInput.lean ====
section
/-! DEFINITION. The key and timer instructions (45_timers_input.md), the key-wait's completion (R216) and the
timer clock's step (60_exceptions.md R240). -/

namespace Sys2Proof.Machine

/-- SKP Vx (R210, R211). -/
def execSkp (x : RegIx) (s : State) : Host.Outcome State Fault Refusal :=
  .next (skip (keyDown (s.reg x) s).1 (keyDown (s.reg x) s).2)

/-- SKNP Vx (R212, R211). -/
def execSknp (x : RegIx) (s : State) : Host.Outcome State Fault Refusal :=
  .next (skip (!(keyDown (s.reg x) s).1) (keyDown (s.reg x) s).2)

/-- LD Vx, DT (R213). -/
def execLdVxDt (x : RegIx) (s : State) : Host.Outcome State Fault Refusal :=
  .next (s.setReg x s.dt)

/-- LD DT, Vx (R214). -/
def execLdDtVx (x : RegIx) (s : State) : Host.Outcome State Fault Refusal :=
  .next (s.setDt (s.reg x))

/-- LD Vx, K (R215): the wait is entered; PC has already moved past the instruction. -/
def execLdVxK (x : RegIx) (s : State) : Host.Outcome State Fault Refusal :=
  .next (s.setStatus (.waitKey x))

/-- A `key_press` event (10_state.md R42): it completes a key-wait (45_timers_input.md R216) and has no effect
on a core that is not waiting. -/
def keyPressed (k : Nibble) (s : State) : State :=
  match s.status with
  | .waitKey x => (s.setReg x (k.setWidth 8)).setStatus .run
  | .run | .fault _ => s

/-- One down-count of a timer, saturating at zero (60_exceptions.md R240). -/
def countDown (t : Byte) : Byte := if t = 0 then t else t - 1

/-- `TimerTick()` (60_exceptions.md R240), one indivisible step (R241). -/
def timerTick (s : State) : State := (s.setDt (countDown s.dt)).setSt (countDown s.st)

end Sys2Proof.Machine
end

