-- ==== Sys2Proof/Machine/Engine.lean ====
section
/-! DEFINITION. The agents' steps: the execution engine's (40_execution_loop.md R101), the timer clock's, the
key-wait's completion and the host's input changes, and which of them moves (60_exceptions.md R242). -/

namespace Sys2Proof.Machine

/-- Decode and execute a fetched word, in the state whose PC the fetch has advanced (R101). An unknown word is
fatal, with the raw word as info (R104). -/
def executeWord (w : Word) (s : State) : Host.Outcome State Fault Refusal :=
  match decode w with
  | .error _ => .next (raise ⟨.unknownInstruction, w.toNat⟩ s)
  | .ok i => exec i s

/-- `ExecStep()` (40_execution_loop.md R101). A fetch that faults leaves PC as it was (20_memory.md R53, D23). -/
def execStep (s : State) : Host.Outcome State Fault Refusal :=
  match fetchWord s with
  | .error c => .next (raise c s)
  | .ok (w, next) => executeWord w (s.setPc next)

/-- The engine's move: a step when STATUS is RUN (R100); none while it waits for a key (R108). -/
def engineMove (s : State) : Host.Outcome State Fault Refusal :=
  match s.status with
  | .run => execStep s
  | .waitKey _ | .fault _ => .next s

/-- One agent's indivisible step (60_exceptions.md R242). -/
def takeTurn (t : Turn) (s : State) : Host.Outcome State Fault Refusal :=
  match t with
  | .engine => engineMove s
  | .tick => .next (timerTick s)
  | .keyPress k => .next (keyPressed k s)
  | .setKeys down => .next (s.setKeyDown down)
  | .presentRandom b => .next (s.setRng (s.rng ++ [b]))

/-- The next step: the first move of `turns`, or the engine's where none is listed (log 2). In FAULT no agent
takes a step (40_execution_loop.md R109). -/
def nextStep (s : State) : Host.Outcome State Fault Refusal :=
  match s.status with
  | .fault c => .fault (.stopped c)
  | .run | .waitKey _ =>
    match s.turns with
    | [] => takeTurn .engine s
    | t :: ts => takeTurn t (s.setTurns ts)

/-- `turns` such that the engine moves first. -/
def engineFirst : List Turn → List Turn
  | [] => []
  | .engine :: ts => .engine :: ts
  | t :: ts => .engine :: t :: ts

/-- A word's two bytes at PC and PC + 1, STATUS RUN and the engine to move. -/
def placeWord (w : Word) (s : State) : State :=
  let m := (writeSeq allLand 0 s.pc.toNat [highByte w, lowByte w] s.mem).1
  ((s.setMem m).setStatus .run).setTurns (engineFirst s.turns)

end Sys2Proof.Machine
end

