-- ==== Sys2Proof/Machine/Step.lean ====
section
/-! DEFINITION. The step of the machine, and the placing of an instruction where it fetches next. -/

namespace Sys2Proof.Machine

/-- One step of a run (60_exceptions.md R242). -/
def step (s : State) : Host.Outcome State Fault Refusal := nextStep s

/-- `s` with an instruction word where the engine fetches next, and the engine about to fetch (log 12). -/
def State.withFetchWord (s : State) (nbits w : Nat) : State := placeWord (BitVec.ofNat 16 (w % 2 ^ nbits)) s

end Sys2Proof.Machine
end

