-- ==== Sys2Proof/Machine/Ports.lean ====
section
/-! DEFINITION. The output ports (10_state.md R46), as views of the state. -/

namespace Sys2Proof.Machine

/-- `sound_on`: ST is nonzero (R46, 60_exceptions.md R243). -/
def soundOn (s : State) : Bool := s.st != 0

/-- `status` equals STATUS (R46). -/
def statusPort (s : State) : Status := s.status

/-- Bit `k` of `fb_snapshot`: bit `y * 64 + x` is the published pixel at column `x`, row `y` (R46, D27). -/
def snapshotBit (s : State) (k : Nat) : Bool := pixel s.snapshot (k % Config.fbWidth) (k / Config.fbWidth)

/-- The lowest `n` bits of `fb_snapshot`. -/
def snapshotBits (s : State) : (n : Nat) → BitVec n
  | 0 => 0#0
  | n + 1 => BitVec.cons (snapshotBit s n) (snapshotBits s n)

/-- `fb_snapshot`, 2048 bits (R40, R46). -/
def fbSnapshot (s : State) : BitVec 2048 := snapshotBits s 2048

end Sys2Proof.Machine
end

