-- ==== Sys2Proof/Machine/Loader.lean ====
section
/-! DEFINITION. The Loader (20_memory.md R54; 70_reset_and_hazards.md R260 to R262): it acts on the reset state,
before the first step. -/

namespace Sys2Proof.Machine

/-- `WriteBlock(offset, bytes)` (20_memory.md R54): the bound is checked before any byte is written. -/
def writeBlock (offset : Nat) (bytes : List Byte) (s : State) : Except FaultCause State :=
  if offset + bytes.length ≤ Config.memSize then .ok (s.setMem (writeSeq allLand 0 offset bytes s.mem).1)
  else .error ⟨.loadTooLarge, bytes.length⟩

/-- The `load` port (10_state.md R45): the image is written from 0x200 (R261); one that is too large writes
nothing and no instruction executes, with STATUS FAULT(LoadTooLarge, len) (R262). -/
def loadImage (image : List Byte) (s : State) : State :=
  match writeBlock Config.loadBase image s with
  | .ok t => t
  | .error c => raise c s

/-- Reset and load (R260): the state in which a run of an image starts. -/
def boot (image : List Byte) : State := loadImage image State.reset

end Sys2Proof.Machine
end

