-- ==== Sys2Proof/Safety.lean ====
section
/-! DEFINITION. What claims are stated in: safe states and runs, the invariant every step keeps, the parts of the
state and what it means that a step leaves a part unchanged, the PARKED state, runs under a list of moves and
fair schedules. -/

namespace Sys2Proof.Machine

/-- No fatal stop has happened (10_state.md R34). -/
def State.safe (s : State) : Prop := ∀ c, s.status ≠ .fault c

/-- The run of a list of agents' moves from a state (60_exceptions.md R242). -/
def runTurns (ts : List Turn) (s : State) : Host.Outcome State Fault Refusal :=
  Host.Core.run Sys2Proof.core ts.length (s.setTurns ts)

/-- A run of these moves is safe when every prefix of it ends in a state without a fault. -/
def safeRun (ts : List Turn) (s : State) : Prop :=
  ∀ n ≤ ts.length, ∃ t, Host.Core.run Sys2Proof.core n (s.setTurns ts) = .next t ∧ t.safe

/-- The invariant of the machine.
`mem_wf`: memory keeps its canonical form.
`sp_le`: the stack's "depth invariant" (10_state.md R28).
`snapshot_eq`: the framebuffer changes only together with its publication (44_display.md R194).
`slot_le`: a return address is a fetch address plus 2, and a fetch at 0x0FFF or above faults (20_memory.md R53).
`pc_le`: PC never exceeds 0x10FE (10_state.md R24). -/
structure State.Inv (s : State) : Prop where
  mem_wf : Memory.wf s.mem = true
  sp_le : s.sp ≤ Config.stackDepth
  snapshot_eq : s.snapshot = s.fb
  slot_le : ∀ k, k < s.sp → (s.slot k).toNat ≤ 0x1000
  pc_le : s.pc.toNat ≤ 0x10FE

/-- PARKED (40_execution_loop.md R110): STATUS is RUN and the word at PC is a JP to its own address. -/
def State.parked (s : State) : Prop :=
  s.status = .run ∧ s.pc.toNat ≤ 0x0FFE ∧ wordOfBytes (s.byteAt s.pc.toNat) (s.byteAt (s.pc.toNat + 1)) = 0x1000#16 ||| s.pc

/-- The parts of the state, for frames. -/
inductive Part where
  | regs | pc | index | delay | sound | stack | screen | memory | status | keys | random | turns | draws
  deriving DecidableEq, Repr

/-- A part is the same in two states: registers, stack slots and memory through their reads. -/
def Part.same (p : Part) (s t : State) : Prop :=
  match p with
  | .regs => ∀ r, t.reg r = s.reg r
  | .pc => t.pc = s.pc
  | .index => t.i = s.i
  | .delay => t.dt = s.dt
  | .sound => t.st = s.st
  | .stack => t.sp = s.sp ∧ ∀ k, t.slot k = s.slot k
  | .screen => t.fb = s.fb ∧ t.snapshot = s.snapshot
  | .memory => ∀ a, t.byteAt a = s.byteAt a
  | .status => t.status = s.status
  | .keys => t.keyDown = s.keyDown
  | .random => t.rng = s.rng
  | .turns => t.turns = s.turns
  | .draws => t.draws = s.draws

/-- Every part of the state outside the list is unchanged from `s` to `t`. -/
def unchangedBut (ps : List Part) (s t : State) : Prop := ∀ p : Part, p ∉ ps → p.same s t

/-- Every register outside the list is unchanged from `s` to `t`. -/
def sameRegsBut (rs : List RegIx) (s t : State) : Prop := ∀ r, r ∉ rs → t.reg r = s.reg r

/-- Every byte of memory outside `base`, ..., `base + n - 1` is unchanged from `s` to `t`. -/
def sameBytesOutside (base n : Nat) (s t : State) : Prop :=
  ∀ a, ¬ (base ≤ a ∧ a < base + n) → t.byteAt a = s.byteAt a

/-- The registers an instruction may write: the table of 10_state.md R22. -/
def writesReg (i : Instr) (r : RegIx) : Bool :=
  match i with
  | .ldImm x _ | .addImm x _ | .rnd x _ => r == x
  | .ldReg x _ | .or x _ | .and x _ | .xor x _ => r == x
  | .addReg x _ | .sub x _ | .shr x _ | .subn x _ | .shl x _ => r == x || r == Config.flagReg
  | .drw _ _ _ => r == Config.flagReg
  | .ldVxDt x => r == x
  | .ldVxMem x => decide (r.toNat ≤ x.toNat)
  | .cls | .ret | .jp _ | .call _ | .seImm _ _ | .sneImm _ _ | .seReg _ _ | .sneReg _ _ | .ldI _ | .jpV0 _
  | .skp _ | .sknp _ | .ldDtVx _ | .ldVxK _ | .addI _ | .ldF _ | .ldB _ | .ldMemVx _ => false

/-- How many bytes from I upward an instruction may write: the write rows of the table of 20_memory.md R56. -/
def writesBytes (i : Instr) : Nat :=
  match i with
  | .ldB _ => 3
  | .ldMemVx x => x.toNat + 1
  | .cls | .ret | .jp _ | .call _ | .seImm _ _ | .sneImm _ _ | .seReg _ _ | .sneReg _ _ | .ldI _ | .jpV0 _
  | .ldImm _ _ | .addImm _ _ | .ldReg _ _ | .or _ _ | .and _ _ | .xor _ _ | .addReg _ _ | .sub _ _ | .shr _ _
  | .subn _ _ | .shl _ _ | .rnd _ _ | .drw _ _ _ | .skp _ | .sknp _ | .ldVxDt _ | .ldDtVx _ | .ldVxK _
  | .addI _ | .ldF _ | .ldVxMem _ => 0

/-- The parts an instruction may change, as each rule of files 41 to 45 says; STATUS where it can fault. -/
def writesParts (i : Instr) : List Part :=
  match i with
  | .cls => [.screen]
  | .ret => [.pc, .stack, .status]
  | .call _ => [.pc, .stack, .status]
  | .jp _ | .jpV0 _ | .seImm _ _ | .sneImm _ _ | .seReg _ _ | .sneReg _ _ => [.pc]
  | .skp _ | .sknp _ => [.pc, .draws]
  | .ldImm _ _ | .addImm _ _ | .ldReg _ _ | .or _ _ | .and _ _ | .xor _ _ | .addReg _ _ | .sub _ _ | .shr _ _
  | .subn _ _ | .shl _ _ | .ldVxDt _ => [.regs]
  | .rnd _ _ => [.regs, .random, .draws]
  | .drw _ _ _ => [.regs, .screen, .status]
  | .ldI _ | .addI _ | .ldF _ => [.index]
  | .ldDtVx _ => [.delay]
  | .ldVxK _ => [.status]
  | .ldB _ | .ldMemVx _ => [.memory, .status, .draws]
  | .ldVxMem _ => [.regs, .status, .draws]

/-- Whether a sprite of `h` rows drawn at (`x0`, `y0`) has a 1 bit at column `col`, row `row`: the start row is
reduced modulo 32, nothing wraps, bit 7 of a row is its left pixel (44_display.md R191). -/
def spriteBit (bytes : Nat → Byte) (h : Nat) (x0 y0 : Byte) (col row : Nat) : Bool :=
  decide (y0.toNat % Config.fbHeight ≤ row ∧ row < y0.toNat % Config.fbHeight + h ∧
    x0.toNat ≤ col ∧ col < x0.toNat + 8) &&
  (bytes (row - y0.toNat % Config.fbHeight)).getLsbD (7 - (col - x0.toNat))

/-- `Execute` of one instruction after the other, with no fetch between. -/
def execAll : List Instr → State → Host.Outcome State Fault Refusal
  | [], s => .next s
  | i :: is, s =>
    match exec i s with
    | .next t => execAll is t
    | .fault f => .fault f
    | .refused r => .refused r

/-- Two states that differ at most in the stack slots at or above SP, which hold no observable value
(10_state.md R28). -/
structure SameButDeadSlots (s t : State) : Prop where
  sp : t.sp = s.sp
  slots : ∀ k, k < s.sp → t.slot k = s.slot k
  rest : t = { s with stack := t.stack }

/-- A schedule names the agent that moves at each time (60_exceptions.md R242). -/
abbrev Schedule := Nat → Turn

/-- Weak fairness of the engine and of the timer clock (40_execution_loop.md R111): each keeps getting moves. -/
def FairSchedule (sch : Schedule) : Prop :=
  (∀ n, ∃ m, n ≤ m ∧ sch m = .engine) ∧ (∀ n, ∃ m, n ≤ m ∧ sch m = .tick)

/-- The first `n` moves of a schedule. -/
def firstTurns (sch : Schedule) (n : Nat) : List Turn := (List.range n).map sch

end Sys2Proof.Machine
end

