-- ==== Sys2Proof/Certificates/Slice0/Obligations.lean ====
section
/-! DEFINITION. The statements for the provers. Opcode values rest on the spec's decision D1 (log 1); the order of
agents is the list `turns` (log 2). `exec i s` runs the rule of `i` in the state `s` whose PC the fetch has already
advanced (40_execution_loop.md R101). -/

open Sys2Proof Sys2Proof.Machine

/-! ### Encoding -/

/-- Encoding then decoding gives every instruction back, from the word and from the bytes (30_encoding.md R84, R85,
R91; 20_memory.md R52). The opcode values are log 1. -/
def Obligations.DecodeInvertsEncode : Prop :=
  (∀ i : Instr, decode (encode i) = .ok i) ∧
  ∀ (i : Instr) (rest : List Byte), decodeBytes (encodeBytes i ++ rest) = .ok (i, rest)

/-- Decoding drops no bit of a word but the bottom nibble of 5xyn and 9xyn, which assembles as 0 (30_encoding.md R88,
R90). Logs 1 and 10. -/
def Obligations.EncodeInvertsDecode : Prop :=
  ∀ (w : Word) (i : Instr), decode w = .ok i →
    encode i = if opField w = 0x5 ∨ opField w = 0x9 then w &&& 0xFFF0#16 else w

/-- The unknown words are those of the table of 30_encoding.md R87, and every other word is an instruction. Logs 1
and 10. -/
def Obligations.UnknownWordsAreThoseOfTheTable : Prop :=
  ∀ w : Word,
    ((opField w = 0x0 ∧ w ≠ 0x00E0 ∧ w ≠ 0x00EE ∨
        opField w = 0x8 ∧ nField w ∈ [0x8, 0x9, 0xA, 0xB, 0xC, 0xD, (0xF : Nibble)] ∨
        opField w = 0xE ∧ kkField w ∉ [0x9E, (0xA1 : Byte)] ∨
        opField w = 0xF ∧ kkField w ∉ [0x07, 0x0A, 0x15, 0x1E, 0x29, 0x33, 0x55, (0x65 : Byte)]) ∧
      decode w = .error (.unknownInstruction w)) ∨
    (¬ (opField w = 0x0 ∧ w ≠ 0x00E0 ∧ w ≠ 0x00EE ∨
        opField w = 0x8 ∧ nField w ∈ [0x8, 0x9, 0xA, 0xB, 0xC, 0xD, (0xF : Nibble)] ∨
        opField w = 0xE ∧ kkField w ∉ [0x9E, (0xA1 : Byte)] ∨
        opField w = 0xF ∧ kkField w ∉ [0x07, 0x0A, 0x15, 0x1E, 0x29, 0x33, 0x55, (0x65 : Byte)]) ∧
      ∃ i, decode w = .ok i)

/-- The match and mask rows of the opcode table are disjoint and together are exactly the words that decode
(30_encoding.md R86). Logs 1 and 10. -/
def Obligations.OpcodeTableRowsAreDisjointAndComplete : Prop :=
  ∀ w : Word,
    (∀ i, decode w = .ok i → w &&& (tableRow i).2 = (tableRow i).1) ∧
    (∀ j, w &&& (tableRow j).2 = (tableRow j).1 → ∃ i, decode w = .ok i ∧ tableRow i = tableRow j)

/-- Words written out from the patterns of 30_encoding.md R84, at least one for each top nibble 0x0 to 0xF, and two
unknown words (R85, R87). The patterns are the spec's decision D1, log 1. That 0x512F decodes as 0x5120 does is D3, that
0xF018 is unknown D4, that 0x01E0 is unknown D2, all log 10. -/
def Obligations.DecodeReadsWordsOfTheTable : Prop :=
  decode 0b0000000011100000#16 = .ok .cls ∧
  decode 0b0000000011101110#16 = .ok .ret ∧
  decode 0b0001001000110100#16 = .ok (.jp 0x234) ∧
  decode 0b0010001101000101#16 = .ok (.call 0x345) ∧
  decode 0b0011011101000010#16 = .ok (.seImm 0x7 0x42) ∧
  decode 0b0100001101000010#16 = .ok (.sneImm 0x3 0x42) ∧
  decode 0b0101000100101111#16 = .ok (.seReg 0x1 0x2) ∧
  decode 0b0110101000101111#16 = .ok (.ldImm 0xA 0x2F) ∧
  decode 0b0111000111111110#16 = .ok (.addImm 0x1 0xFE) ∧
  decode 0b1000000100100100#16 = .ok (.addReg 0x1 0x2) ∧
  decode 0b1001010001111100#16 = .ok (.sneReg 0x4 0x7) ∧
  decode 0b1010000100100011#16 = .ok (.ldI 0x123) ∧
  decode 0b1011001100000100#16 = .ok (.jpV0 0x304) ∧
  decode 0b1100001100001111#16 = .ok (.rnd 0x3 0x0F) ∧
  decode 0b1101000100101111#16 = .ok (.drw 0x1 0x2 0xF) ∧
  decode 0b1110010110011110#16 = .ok (.skp 0x5) ∧
  decode 0b1111001000001010#16 = .ok (.ldVxK 0x2) ∧
  decode 0b1111001001100101#16 = .ok (.ldVxMem 0x2) ∧
  decode 0b1111000000011000#16 = .error (.unknownInstruction 0xF018) ∧
  decode 0b0000000111100000#16 = .error (.unknownInstruction 0x01E0)

/-- The bits an operation's encoding holds and its execution does not read: n of 5xyn and 9xyn, y of 8xy6 and 8xyE
(30_encoding.md R88, D3, D5). Log 10. -/
def Obligations.IgnoredBitsDoNotMatter : Prop :=
  (∀ x y n, decode (wordXYN 0x5 x y n) = .ok (.seReg x y) ∧ decode (wordXYN 0x9 x y n) = .ok (.sneReg x y)) ∧
  ∀ x y y' s, exec (.shr x y) s = exec (.shr x y') s ∧ exec (.shl x y) s = exec (.shl x y') s

/-! ### The step of the engine -/

/-- ExecStep (40_execution_loop.md R101): fetch, PC advanced by 2, decode, execute, when STATUS is RUN. A fault of the
fetch and an unknown word are raised. That a fetch that faults leaves PC as it was is the spec's decision D23
(log 13); that the engine's move outside RUN answers the same state is the model's form, log 2. -/
def Obligations.ExecStepFetchesDecodesExecutes : Prop :=
  ∀ s : State,
    (s.status ≠ .run → engineMove s = .next s) ∧
    (s.status = .run → ∀ c, fetchWord s = .error c → engineMove s = .next (raise c s)) ∧
    (s.status = .run → ∀ w next, fetchWord s = .ok (w, next) →
      next = s.pc + 2 ∧
      (∀ i, decode w = .ok i → engineMove s = exec i (s.setPc next)) ∧
      (∀ e, decode w = .error e →
        engineMove s = .next (raise ⟨.unknownInstruction, w.toNat⟩ (s.setPc next))))

/-- FetchWord (20_memory.md R52, R53): the byte at PC is the high byte; a fetch that leaves memory faults with the first
address outside. The PC after a fault is the spec's decision D23. -/
def Obligations.FetchIsBigEndianAndBounded : Prop :=
  ∀ s : State,
    (s.pc.toNat + 1 < 4096 → ∃ w : Word,
      fetchWord s = .ok (w, s.pc + 2) ∧
      w.toNat = 256 * (s.byteAt s.pc.toNat).toNat + (s.byteAt (s.pc.toNat + 1)).toNat) ∧
    (4096 ≤ s.pc.toNat → fetchWord s = .error ⟨.outOfBoundsMemoryAccess, s.pc.toNat⟩) ∧
    (s.pc.toNat = 4095 → fetchWord s = .error ⟨.outOfBoundsMemoryAccess, 4096⟩)

/-- When the bytes at PC decode to an instruction and the engine moves, the step is `exec` of it with PC advanced past
its word (40_execution_loop.md R101; who moves is log 2). -/
def Obligations.StepRunsTheDecodedInstruction : Prop :=
  ∀ (s : State) (ts : List Turn) (i : Instr),
    s.status = .run → (s.turns = [] ∧ ts = [] ∨ s.turns = .engine :: ts) → s.pc.toNat + 1 < 4096 →
    decode (wordOfBytes (s.byteAt s.pc.toNat) (s.byteAt (s.pc.toNat + 1))) = .ok i →
    step s = exec i ((s.setTurns ts).setPc (s.pc + 2))

/-- A word that decodes to UNKNOWN is fatal: PC is past it, the fault holds the raw word, nothing else changes, and the
run goes no further (40_execution_loop.md R104; who moves is log 2, the stop is log 9). -/
def Obligations.UnknownWordIsFatal : Prop :=
  ∀ (s : State) (ts : List Turn) (w : Word),
    s.status = .run → (s.turns = [] ∧ ts = [] ∨ s.turns = .engine :: ts) → s.pc.toNat + 1 < 4096 →
    w = wordOfBytes (s.byteAt s.pc.toNat) (s.byteAt (s.pc.toNat + 1)) → (∀ i, decode w ≠ .ok i) →
    ∃ t, step s = .next t ∧ t.status = .fault ⟨.unknownInstruction, w.toNat⟩ ∧ t.pc = s.pc + 2 ∧ t.turns = ts ∧
      unchangedBut [.pc, .status, .turns] s t ∧ step t = .fault (.stopped ⟨.unknownInstruction, w.toNat⟩)

/-- A fetch at 0x0FFF or above faults and leaves PC and everything but STATUS as it was (20_memory.md R53, D23;
60_exceptions.md R233; who moves is log 2). -/
def Obligations.FetchFaultKeepsPc : Prop :=
  ∀ (s : State) (ts : List Turn),
    s.status = .run → (s.turns = [] ∧ ts = [] ∨ s.turns = .engine :: ts) → 0x0FFF ≤ s.pc.toNat →
    ∃ t, step s = .next t ∧
      t.status = .fault ⟨.outOfBoundsMemoryAccess, if s.pc.toNat = 0x0FFF then 0x1000 else s.pc.toNat⟩ ∧
      t.turns = ts ∧ unchangedBut [.status, .turns] s t

/-- Taking a fault is STATUS <- FAULT(K, info) and nothing else, and the status port shows it (60_exceptions.md R232).
The last clause, that a step then answers the fault `stopped`, is the model's form of the stop, log 9
(40_execution_loop.md R109, the spec's decision D34). -/
def Obligations.RaiseWritesStatusOnly : Prop :=
  ∀ (c : FaultCause) (s : State),
    (raise c s).status = .fault c ∧ statusPort (raise c s) = .fault c ∧ unchangedBut [.status] s (raise c s) ∧
    step (raise c s) = .fault (.stopped c)

/-- A step answers a next state in every state but those whose STATUS is FAULT, where it stops with that fault whatever
move comes next; it never refuses (40_execution_loop.md R100, R109; 60_exceptions.md R234). The engine has no step of
its own in WAIT_KEY (R100): that its move there is idle, and that it moves where the list is empty, are log 2; the form
of the stop is log 9. -/
def Obligations.StepStopsExactlyInFault : Prop :=
  ∀ s : State,
    (s.safe → ∃ t, step s = .next t) ∧ ∀ c, s.status = .fault c → step s = .fault (.stopped c)

/-! ### The timer clock and the key-wait -/

/-- TimerTick: each nonzero timer counts down by 1 and both saturate at 0, whenever STATUS is not FAULT; the timer clock
never faults (60_exceptions.md R231, R240). -/
def Obligations.TimerTickCountsDown : Prop :=
  (∀ (s : State) (ts : List Turn), s.safe → s.turns = .tick :: ts →
    ∃ t, step s = .next t ∧ t.dt = (if s.dt ≠ 0 then s.dt - 1 else s.dt) ∧
      t.st = (if s.st ≠ 0 then s.st - 1 else s.st) ∧ t.turns = ts ∧ unchangedBut [.delay, .sound, .turns] s t) ∧
  ∀ (n : Nat) (s : State), s.safe →
    ∃ t, runTurns (List.replicate n .tick) s = .next t ∧ t.dt.toNat = s.dt.toNat - n ∧ t.st.toNat = s.st.toNat - n ∧
      unchangedBut [.delay, .sound, .turns] s t

/-- A key press ends a key-wait: the code goes to the register, STATUS is RUN, PC stays. A press outside a wait has no
effect (10_state.md R42; 45_timers_input.md R216; the spec's decision D17). -/
def Obligations.KeyPressEndsTheWait : Prop :=
  ∀ (s : State) (ts : List Turn) (k : Nibble), s.turns = .keyPress k :: ts →
    (∀ x, s.status = .waitKey x → ∃ t, step s = .next t ∧ (t.reg x).toNat = k.toNat ∧ t.status = .run ∧ t.turns = ts ∧
      sameRegsBut [x] s t ∧ unchangedBut [.regs, .status, .turns] s t) ∧
    (s.status = .run → ∃ t, step s = .next t ∧ t.turns = ts ∧ unchangedBut [.turns] s t)

/-- While STATUS is WAIT_KEY and no key is pressed, whatever moves come, the engine executes nothing
(40_execution_loop.md R108) and the timers keep counting, one down a tick (60_exceptions.md R240). The engine's moves
in the list are idle, the model's form, log 2. -/
def Obligations.WaitingEngineExecutesNothing : Prop :=
  ∀ (ts : List Turn) (s : State) (x : RegIx), s.status = .waitKey x → (∀ k, Turn.keyPress k ∉ ts) →
    ∃ t, runTurns ts s = .next t ∧ t.status = .waitKey x ∧ t.dt.toNat = s.dt.toNat - ts.count .tick ∧
      t.st.toNat = s.st.toNat - ts.count .tick ∧ unchangedBut [.delay, .sound, .keys, .random, .turns] s t

/-- Under every fair schedule without a key press a waiting core's delay timer reaches 0 and stays there, and the wait
goes on (40_execution_loop.md R108, R111; fairness is the spec's decision D32, log 11). `FairSchedule` also asks for
moves of the engine during the wait, which R111 does not: they are idle (log 2). -/
def Obligations.FairSchedulesDrainTheDelayTimer : Prop :=
  ∀ (sch : Schedule) (s : State) (x : RegIx), FairSchedule sch → (∀ n k, sch n ≠ .keyPress k) → s.status = .waitKey x →
    ∃ n, ∀ m, n ≤ m → ∃ t, runTurns (firstTurns sch m) s = .next t ∧ t.dt = 0 ∧ t.status = .waitKey x

/-- The host's input changes are steps of their own and change only their port (10_state.md R40, R47; 60_exceptions.md
R242; logs 2, 6 and 7). -/
def Obligations.InputChangesTouchOnlyTheirPort : Prop :=
  ∀ (s : State) (ts : List Turn), s.safe →
    (∀ m, s.turns = .setKeys m :: ts →
      ∃ t, step s = .next t ∧ t.keyDown = m ∧ t.turns = ts ∧ unchangedBut [.keys, .turns] s t) ∧
    (∀ b, s.turns = .presentRandom b :: ts →
      ∃ t, step s = .next t ∧ t.rng = s.rng ++ [b] ∧ t.turns = ts ∧ unchangedBut [.random, .turns] s t)

/-- A PARKED state stays as it is, however often the engine steps (40_execution_loop.md R110, a convention of the spec,
D29; who moves is log 2). -/
def Obligations.ParkedStatesStayAsTheyAre : Prop :=
  ∀ (n : Nat) (s : State), s.parked → s.turns = [] → Host.Core.run Sys2Proof.core n s = .next s

/-! ### Control flow -/

/-- Pop() (10_state.md R30). -/
def Obligations.PopTakesTheTop : Prop :=
  ∀ s : State,
    (s.sp = 0 → pop s = .error ⟨.stackUnderflow, 0⟩) ∧
    (0 < s.sp → ∃ t, pop s = .ok (s.slot (s.sp - 1), t) ∧ t.sp = s.sp - 1 ∧ (∀ k, t.slot k = s.slot k) ∧
      unchangedBut [.stack] s t)

/-- CALL pushes PC, the address after it, and jumps, on a stack that is not full (41_control_flow.md R122). -/
def Obligations.CallPushesTheReturnAddress : Prop :=
  ∀ (nnn : BitVec 12) (s : State), s.sp < 16 →
    ∃ t, exec (.call nnn) s = .next t ∧ t.pc.toNat = nnn.toNat ∧ t.sp = s.sp + 1 ∧ t.slot s.sp = s.pc ∧
      (∀ k, k ≠ s.sp → t.slot k = s.slot k) ∧ unchangedBut [.pc, .stack] s t

/-- CALL on a full stack raises StackOverflow with the return address and changes nothing else (41_control_flow.md R122;
the spec's decision D26). -/
def Obligations.CallOnAFullStackFaults : Prop :=
  ∀ (nnn : BitVec 12) (s : State), s.sp = 16 →
    ∃ t, exec (.call nnn) s = .next t ∧ t.status = .fault ⟨.stackOverflow, s.pc.toNat⟩ ∧ unchangedBut [.status] s t

/-- RET goes to the popped address, used as it is (41_control_flow.md R120). -/
def Obligations.RetReturnsToThePoppedAddress : Prop :=
  ∀ s : State, 0 < s.sp → s.sp ≤ 16 →
    ∃ t, exec .ret s = .next t ∧ t.pc = s.slot (s.sp - 1) ∧ t.sp = s.sp - 1 ∧ (∀ k, t.slot k = s.slot k) ∧
      unchangedBut [.pc, .stack] s t

/-- RET on an empty stack raises StackUnderflow and changes nothing else (41_control_flow.md R120). -/
def Obligations.RetOnAnEmptyStackFaults : Prop :=
  ∀ s : State, s.sp = 0 →
    ∃ t, exec .ret s = .next t ∧ t.status = .fault ⟨.stackUnderflow, 0⟩ ∧ unchangedBut [.status] s t

/-- Any nest of calls that fits in the stack, followed by as many returns, comes back to the address after the first
call, with the stack as deep as before and its entries as before (41_control_flow.md R122). -/
def Obligations.NestedCallsReturn : Prop :=
  ∀ (targets : List (BitVec 12)) (s : State), s.sp + targets.length ≤ 16 →
    ∃ t, execAll (targets.map Instr.call ++ List.replicate targets.length .ret) s = .next t ∧
      t.pc = s.pc ∧ t.sp = s.sp ∧ (∀ k, k < s.sp → t.slot k = s.slot k) ∧ unchangedBut [.stack] s t

/-- JP goes to nnn; JP V0 goes to nnn + V0, not masked to 12 bits (41_control_flow.md R121, R127; V0 and the missing mask
are D9, log 1). -/
def Obligations.JumpsSetThePc : Prop :=
  ∀ (nnn : BitVec 12) (s : State),
    (∃ t, exec (.jp nnn) s = .next t ∧ t.pc.toNat = nnn.toNat ∧ unchangedBut [.pc] s t) ∧
    (∃ t, exec (.jpV0 nnn) s = .next t ∧ t.pc.toNat = nnn.toNat + (s.reg 0).toNat ∧ unchangedBut [.pc] s t)

/-- Skip(c) adds a further 2 to PC when the condition holds, modulo 2^16, and does nothing else: the skipped word is
neither fetched nor decoded (40_execution_loop.md R106). -/
def Obligations.SkipMovesThePcOnly : Prop :=
  ∀ (c : Bool) (s : State),
    ((skip c s).pc.toNat = if c then (s.pc.toNat + 2) % 65536 else s.pc.toNat) ∧ unchangedBut [.pc] s (skip c s)

/-- The four comparing skips (41_control_flow.md R123 to R126; that n is not examined is D3, log 10). -/
def Obligations.ComparingSkips : Prop :=
  ∀ (x y : RegIx) (kk : Byte) (s : State),
    (∃ t, exec (.seImm x kk) s = .next t ∧ t.pc = (if s.reg x = kk then s.pc + 2 else s.pc) ∧
      unchangedBut [.pc] s t) ∧
    (∃ t, exec (.sneImm x kk) s = .next t ∧ t.pc = (if s.reg x = kk then s.pc else s.pc + 2) ∧
      unchangedBut [.pc] s t) ∧
    (∃ t, exec (.seReg x y) s = .next t ∧ t.pc = (if s.reg x = s.reg y then s.pc + 2 else s.pc) ∧
      unchangedBut [.pc] s t) ∧
    (∃ t, exec (.sneReg x y) s = .next t ∧ t.pc = (if s.reg x = s.reg y then s.pc else s.pc + 2) ∧
      unchangedBut [.pc] s t)

/-- SKP and SKNP skip on the level of the key Vx names when Vx is at most 15; above 15 the answer is the free value of
this draw, the same whichever way the port stands (45_timers_input.md R210 to R212; the spec's decision D16; log 8). -/
def Obligations.KeySkips : Prop :=
  ∀ (x : RegIx) (s : State),
    ((s.reg x).toNat ≤ 15 →
      (∃ t, exec (.skp x) s = .next t ∧
        t.pc = (if s.keyDown.getLsbD (s.reg x).toNat then s.pc + 2 else s.pc) ∧ unchangedBut [.pc] s t) ∧
      (∃ t, exec (.sknp x) s = .next t ∧
        t.pc = (if s.keyDown.getLsbD (s.reg x).toNat then s.pc else s.pc + 2) ∧ unchangedBut [.pc] s t)) ∧
    (15 < (s.reg x).toNat →
      (∃ t, exec (.skp x) s = .next t ∧
        t.pc = (if Config.keyDownAbove15 s.draws then s.pc + 2 else s.pc) ∧ unchangedBut [.pc, .draws] s t) ∧
      (∃ t, exec (.sknp x) s = .next t ∧
        t.pc = (if Config.keyDownAbove15 s.draws then s.pc else s.pc + 2) ∧ unchangedBut [.pc, .draws] s t))

/-! ### Registers and arithmetic -/

/-- LD Vx, byte; ADD Vx, byte, which wraps and writes no flag; LD Vx, Vy (42_alu.md R142, R143, R144; no flag is D7). -/
def Obligations.LoadsAndAddImmediate : Prop :=
  ∀ (x y : RegIx) (kk : Byte) (s : State),
    (∃ t, exec (.ldImm x kk) s = .next t ∧ t.reg x = kk ∧ sameRegsBut [x] s t ∧ unchangedBut [.regs] s t) ∧
    (∃ t, exec (.addImm x kk) s = .next t ∧ (t.reg x).toNat = ((s.reg x).toNat + kk.toNat) % 256 ∧
      sameRegsBut [x] s t ∧ unchangedBut [.regs] s t) ∧
    (∃ t, exec (.ldReg x y) s = .next t ∧ t.reg x = s.reg y ∧ sameRegsBut [x] s t ∧ unchangedBut [.regs] s t)

/-- OR, AND and XOR, bit by bit; VF is untouched unless it is Vx (42_alu.md R145, R146, R147; the spec's decision D8). -/
def Obligations.LogicOperations : Prop :=
  ∀ (x y : RegIx) (s : State),
    (∃ t, exec (.or x y) s = .next t ∧
      (∀ j, (t.reg x).getLsbD j = ((s.reg x).getLsbD j || (s.reg y).getLsbD j)) ∧
      sameRegsBut [x] s t ∧ unchangedBut [.regs] s t) ∧
    (∃ t, exec (.and x y) s = .next t ∧
      (∀ j, (t.reg x).getLsbD j = ((s.reg x).getLsbD j && (s.reg y).getLsbD j)) ∧
      sameRegsBut [x] s t ∧ unchangedBut [.regs] s t) ∧
    (∃ t, exec (.xor x y) s = .next t ∧
      (∀ j, (t.reg x).getLsbD j = ((s.reg x).getLsbD j ^^ (s.reg y).getLsbD j)) ∧
      sameRegsBut [x] s t ∧ unchangedBut [.regs] s t)

/-- ADD Vx, Vy, SUB and SUBN: the result is computed from the values before, VF is the carry or the absent borrow, and
with x = F the result stays and the flag is lost (42_alu.md R141, R150, R151, R153; the order of the two writes is
D6, the minuend of SUBN is D38). -/
def Obligations.AddAndSubtractWithFlag : Prop :=
  ∀ (x y : RegIx) (s : State),
    (∃ t, exec (.addReg x y) s = .next t ∧
      (t.reg x).toNat = ((s.reg x).toNat + (s.reg y).toNat) % 256 ∧
      (x ≠ 0xF → t.reg 0xF = if 255 < (s.reg x).toNat + (s.reg y).toNat then 1 else 0) ∧
      sameRegsBut [x, 0xF] s t ∧ unchangedBut [.regs] s t) ∧
    (∃ t, exec (.sub x y) s = .next t ∧
      (t.reg x).toNat = ((s.reg x).toNat + 256 - (s.reg y).toNat) % 256 ∧
      (x ≠ 0xF → t.reg 0xF = if (s.reg y).toNat ≤ (s.reg x).toNat then 1 else 0) ∧
      sameRegsBut [x, 0xF] s t ∧ unchangedBut [.regs] s t) ∧
    (∃ t, exec (.subn x y) s = .next t ∧
      (t.reg x).toNat = ((s.reg y).toNat + 256 - (s.reg x).toNat) % 256 ∧
      (x ≠ 0xF → t.reg 0xF = if (s.reg x).toNat ≤ (s.reg y).toNat then 1 else 0) ∧
      sameRegsBut [x, 0xF] s t ∧ unchangedBut [.regs] s t)

/-- SHR and SHL shift Vx by one bit, a zero comes in, VF is the bit that goes out, and with x = F the result stays
(42_alu.md R141, R152, R154; the operand Vx is D5, log 10, the order of the two writes D6, log 13). -/
def Obligations.ShiftsByOne : Prop :=
  ∀ (x y : RegIx) (s : State),
    (∃ t, exec (.shr x y) s = .next t ∧
      (t.reg x).toNat = (s.reg x).toNat / 2 ∧
      (x ≠ 0xF → (t.reg 0xF).toNat = (s.reg x).toNat % 2) ∧
      sameRegsBut [x, 0xF] s t ∧ unchangedBut [.regs] s t) ∧
    (∃ t, exec (.shl x y) s = .next t ∧
      (t.reg x).toNat = 2 * (s.reg x).toNat % 256 ∧
      (x ≠ 0xF → (t.reg 0xF).toNat = (s.reg x).toNat / 128) ∧
      sameRegsBut [x, 0xF] s t ∧ unchangedBut [.regs] s t)

/-- RND: a byte the host has presented, or else a free value, masked by kk; 0 when kk is 0 (42_alu.md R155; the draw is
the spec's decision D18; logs 7 and 8). -/
def Obligations.RandomByteIsMasked : Prop :=
  ∀ (x : RegIx) (kk : Byte) (s : State),
    (∀ b rest, s.rng = b :: rest → ∃ t, exec (.rnd x kk) s = .next t ∧ t.reg x = b &&& kk ∧ t.rng = rest ∧
      sameRegsBut [x] s t ∧ unchangedBut [.regs, .random] s t) ∧
    (s.rng = [] → ∃ t, exec (.rnd x kk) s = .next t ∧ t.reg x = Config.randomByte s.draws &&& kk ∧
      sameRegsBut [x] s t ∧ unchangedBut [.regs, .draws] s t) ∧
    (∃ t, exec (.rnd x 0) s = .next t ∧ t.reg x = 0)

/-! ### Index register and memory -/

/-- LD I, ADD I and LD F (43_index_memory.md R170, R171, R172; no flag is D10, the low nibble is D11). -/
def Obligations.IndexInstructions : Prop :=
  ∀ (nnn : BitVec 12) (x : RegIx) (s : State),
    (∃ t, exec (.ldI nnn) s = .next t ∧ t.i.toNat = nnn.toNat ∧ unchangedBut [.index] s t) ∧
    (∃ t, exec (.addI x) s = .next t ∧ t.i.toNat = (s.i.toNat + (s.reg x).toNat) % 65536 ∧
      unchangedBut [.index] s t) ∧
    (∃ t, exec (.ldF x) s = .next t ∧ t.i.toNat = 5 * ((s.reg x).toNat % 16) ∧ unchangedBut [.index] s t)

/-- LD B stores the three decimal digits at I, I + 1, I + 2 and leaves every other byte and I as they were
(43_index_memory.md R173; I unchanged is D13). -/
def Obligations.BcdStoresTheDigits : Prop :=
  ∀ (x : RegIx) (s : State), Memory.wf s.mem → s.i.toNat + 3 ≤ 4096 →
    ∃ t, exec (.ldB x) s = .next t ∧
      (t.byteAt s.i.toNat).toNat = (s.reg x).toNat / 100 ∧
      (t.byteAt (s.i.toNat + 1)).toNat = (s.reg x).toNat / 10 % 10 ∧
      (t.byteAt (s.i.toNat + 2)).toNat = (s.reg x).toNat % 10 ∧
      sameBytesOutside s.i.toNat 3 s t ∧ unchangedBut [.memory] s t

/-- LD [I], Vx stores V0..Vx from I upward and leaves every other byte and I as they were (43_index_memory.md R174; I
unchanged is D13). -/
def Obligations.BlockStoreWritesV0ToVx : Prop :=
  ∀ (x : RegIx) (s : State), Memory.wf s.mem → s.i.toNat + (x.toNat + 1) ≤ 4096 →
    ∃ t, exec (.ldMemVx x) s = .next t ∧
      (∀ r : RegIx, r.toNat ≤ x.toNat → t.byteAt (s.i.toNat + r.toNat) = s.reg r) ∧
      sameBytesOutside s.i.toNat (x.toNat + 1) s t ∧ unchangedBut [.memory] s t

/-- LD Vx, [I] loads V0..Vx from I upward and leaves every other register and I as they were (43_index_memory.md R175; I
unchanged is D13). -/
def Obligations.BlockLoadReadsV0ToVx : Prop :=
  ∀ (x : RegIx) (s : State), s.i.toNat + (x.toNat + 1) ≤ 4096 →
    ∃ t, exec (.ldVxMem x) s = .next t ∧
      (∀ r : RegIx, r.toNat ≤ x.toNat → t.reg r = s.byteAt (s.i.toNat + r.toNat)) ∧
      (∀ r : RegIx, x.toNat < r.toNat → t.reg r = s.reg r) ∧ unchangedBut [.regs] s t

/-- LD B and LD [I], Vx that leave memory fault at the first address outside; each byte before it holds its old or its new
value, every other byte is as before (43_index_memory.md R173, R174; 60_exceptions.md R233; the spec's decision D23;
log 8). -/
def Obligations.FaultingStoresLeaveOldOrNewBytes : Prop :=
  ∀ (x : RegIx) (s : State), Memory.wf s.mem →
    (4096 < s.i.toNat + 3 → ∃ t, exec (.ldB x) s = .next t ∧
      t.status = .fault ⟨.outOfBoundsMemoryAccess, max s.i.toNat 4096⟩ ∧
      (∀ k, k < 3 → s.i.toNat + k < 4096 →
        t.byteAt (s.i.toNat + k) = s.byteAt (s.i.toNat + k) ∨
        (t.byteAt (s.i.toNat + k)).toNat =
          if k = 0 then (s.reg x).toNat / 100 else if k = 1 then (s.reg x).toNat / 10 % 10 else (s.reg x).toNat % 10) ∧
      sameBytesOutside s.i.toNat (4096 - s.i.toNat) s t ∧ unchangedBut [.memory, .status, .draws] s t) ∧
    (4096 < s.i.toNat + (x.toNat + 1) → ∃ t, exec (.ldMemVx x) s = .next t ∧
      t.status = .fault ⟨.outOfBoundsMemoryAccess, max s.i.toNat 4096⟩ ∧
      (∀ r : RegIx, r.toNat ≤ x.toNat → s.i.toNat + r.toNat < 4096 →
        t.byteAt (s.i.toNat + r.toNat) = s.byteAt (s.i.toNat + r.toNat) ∨
        t.byteAt (s.i.toNat + r.toNat) = s.reg r) ∧
      sameBytesOutside s.i.toNat (4096 - s.i.toNat) s t ∧ unchangedBut [.memory, .status, .draws] s t)

/-- LD Vx, [I] that leaves memory faults at the first address outside; each register before it holds its old or its loaded
value, every other register is as before (43_index_memory.md R175; 60_exceptions.md R233; the spec's decision D23;
log 8). -/
def Obligations.FaultingLoadLeavesOldOrNewRegisters : Prop :=
  ∀ (x : RegIx) (s : State), 4096 < s.i.toNat + (x.toNat + 1) →
    ∃ t, exec (.ldVxMem x) s = .next t ∧
      t.status = .fault ⟨.outOfBoundsMemoryAccess, max s.i.toNat 4096⟩ ∧
      (∀ r : RegIx, t.reg r = s.reg r ∨
        (r.toNat ≤ x.toNat ∧ s.i.toNat + r.toNat < 4096 ∧ t.reg r = s.byteAt (s.i.toNat + r.toNat))) ∧
      unchangedBut [.regs, .status, .draws] s t

/-- The block round trip: V0..Vx stored at I, then loaded from the same I into any register file, come back
(43_index_memory.md R175). -/
def Obligations.BlockRoundTrip : Prop :=
  ∀ (x : RegIx) (s t u : State), Memory.wf s.mem → s.i.toNat + (x.toNat + 1) ≤ 4096 →
    exec (.ldMemVx x) s = .next t → u.i = s.i → (∀ a, u.byteAt a = t.byteAt a) →
    ∃ w, exec (.ldVxMem x) u = .next w ∧ ∀ r : RegIx, r.toNat ≤ x.toNat → w.reg r = s.reg r

/-- Self-modifying code: a block store at the address of the next instruction is seen by the very next fetch
(20_memory.md R66, an inference of the spec). -/
def Obligations.StoreIsSeenByTheNextFetch : Prop :=
  ∀ (x : RegIx) (s : State), Memory.wf s.mem → 1 ≤ x.toNat → s.i = s.pc → s.i.toNat + (x.toNat + 1) ≤ 4096 →
    ∃ t, exec (.ldMemVx x) s = .next t ∧ fetchWord t = .ok (wordOfBytes (s.reg 0) (s.reg 1), s.pc + 2)

/-! ### Display -/

/-- Clear() sets every pixel to 0 (44_display.md R190); CLS does so (R193), publishes (R194; when it publishes is the
spec's decision D27, log 13), and changes nothing else. -/
def Obligations.ClearSetsEveryPixelToZero : Prop :=
  ∀ s : State, ∃ t, exec .cls s = .next t ∧ (∀ x y, x < 64 → y < 32 → pixel t.fb x y = false) ∧
    t.snapshot = t.fb ∧ unchangedBut [.screen] s t

/-- DRW inside memory: each pixel is XORed with the sprite's bit there, clipped right and below after the start row is
reduced modulo 32; VF is 1 exactly when a set pixel was cleared; the result is published (44_display.md R191, R192,
R194; the vertical reading and x0 >= 64 are D14, the reads and n = 0 are D15). -/
def Obligations.DrawXorsTheSprite : Prop :=
  ∀ (x y : RegIx) (n : Nibble) (s : State), (n.toNat = 0 ∨ s.i.toNat + n.toNat ≤ 4096) →
    ∃ t, exec (.drw x y n) s = .next t ∧
      (∀ col row, col < 64 → row < 32 →
        pixel t.fb col row =
          (pixel s.fb col row ^^
            spriteBit (fun k => s.byteAt (s.i.toNat + k)) n.toNat (s.reg x) (s.reg y) col row)) ∧
      ((∃ col row, col < 64 ∧ row < 32 ∧ pixel s.fb col row = true ∧ pixel t.fb col row = false) →
        t.reg 0xF = 1) ∧
      ((¬ ∃ col row, col < 64 ∧ row < 32 ∧ pixel s.fb col row = true ∧ pixel t.fb col row = false) →
        t.reg 0xF = 0) ∧
      t.snapshot = t.fb ∧ sameRegsBut [0xF] s t ∧ unchangedBut [.regs, .screen] s t

/-- DRW whose sprite leaves memory faults at the first address outside, clipped rows or not, and changes nothing else: no
pixel, no publication, not VF (44_display.md R192, R194; the spec's decision D15). -/
def Obligations.DrawOutsideMemoryFaults : Prop :=
  ∀ (x y : RegIx) (n : Nibble) (s : State), 0 < n.toNat → 4096 < s.i.toNat + n.toNat →
    ∃ t, exec (.drw x y n) s = .next t ∧
      t.status = .fault ⟨.outOfBoundsMemoryAccess, max s.i.toNat 4096⟩ ∧ unchangedBut [.status] s t

/-- Drawing the same sprite at the same place twice restores the screen (44_display.md R191: each set bit
XOR-toggles its pixel). -/
def Obligations.DrawingTwiceRestoresTheScreen : Prop :=
  ∀ (x y : RegIx) (n : Nibble) (s : State), x ≠ 0xF → y ≠ 0xF → (n.toNat = 0 ∨ s.i.toNat + n.toNat ≤ 4096) →
    ∃ t u, exec (.drw x y n) s = .next t ∧ exec (.drw x y n) t = .next u ∧ u.fb = s.fb

/-- Bit y*64 + x of the snapshot port is the published pixel at column x, row y (10_state.md R46; the layout is the
spec's decision D27). -/
def Obligations.SnapshotPortLayout : Prop :=
  ∀ (s : State) (x y : Nat), x < 64 → y < 32 → (fbSnapshot s).getLsbD (y * 64 + x) = pixel s.snapshot x y

/-! ### Timers and keys -/

/-- LD Vx, DT; LD DT, Vx; LD Vx, K, which enters the wait whatever keys are down (45_timers_input.md R213, R214, R215;
a held key does not end the wait is D17). -/
def Obligations.TimerAndWaitInstructions : Prop :=
  ∀ (x : RegIx) (s : State),
    (∃ t, exec (.ldVxDt x) s = .next t ∧ t.reg x = s.dt ∧ sameRegsBut [x] s t ∧ unchangedBut [.regs] s t) ∧
    (∃ t, exec (.ldDtVx x) s = .next t ∧ t.dt = s.reg x ∧ unchangedBut [.delay] s t) ∧
    (∃ t, exec (.ldVxK x) s = .next t ∧ t.status = .waitKey x ∧ unchangedBut [.status] s t)

/-! ### The whole machine -/

/-- Every instruction changes at most the parts its rule names, the registers of the table of 10_state.md R22 and the
bytes of the table of 20_memory.md R56, both inferences of the spec. -/
def Obligations.InstructionsChangeOnlyTheirParts : Prop :=
  ∀ (i : Instr) (s t : State), Memory.wf s.mem → exec i s = .next t →
    unchangedBut (writesParts i) s t ∧ (∀ r, writesReg i r = false → t.reg r = s.reg r) ∧
    sameBytesOutside s.i.toNat (writesBytes i) s t

/-- PC after an instruction's own effect: as the fetch left it, or a taken skip's further 2, or the target of a jump or a
call, or the popped address (10_state.md R24). That JP V0 goes to nnn + V0, not masked, is the spec's decision D9,
PRESUMED, log 1. -/
def Obligations.PcChangesOnlyByControlFlow : Prop :=
  ∀ (i : Instr) (s t : State), exec i s = .next t →
    t.pc = s.pc ∨
    (t.pc = s.pc + 2 ∧ ((∃ x kk, i = .seImm x kk ∨ i = .sneImm x kk) ∨ (∃ x y, i = .seReg x y ∨ i = .sneReg x y) ∨
      ∃ x, i = .skp x ∨ i = .sknp x)) ∨
    (∃ nnn, (i = .jp nnn ∨ i = .call nnn) ∧ t.pc.toNat = nnn.toNat) ∨
    (∃ nnn, i = .jpV0 nnn ∧ t.pc.toNat = nnn.toNat + (s.reg 0).toNat) ∨
    (i = .ret ∧ 0 < s.sp ∧ t.pc = s.slot (s.sp - 1))

/-- The faults an instruction can raise, by whom and with what info (60_exceptions.md R230, R235; the info of a stack
fault is the spec's decision D22). -/
def Obligations.OnlyTheseFaultsArise : Prop :=
  ∀ (i : Instr) (s t : State) (c : FaultCause), s.safe → exec i s = .next t → t.status = .fault c →
    (c.kind = .outOfBoundsMemoryAccess ∧ c.info = max s.i.toNat 0x1000 ∧ c.info ≤ 0xFFFF ∧
      ((∃ x y n, i = .drw x y n) ∨ ∃ x, i = .ldB x ∨ i = .ldMemVx x ∨ i = .ldVxMem x)) ∨
    (c = ⟨.stackOverflow, s.pc.toNat⟩ ∧ 16 ≤ s.sp ∧ ∃ nnn, i = .call nnn) ∨
    (c = ⟨.stackUnderflow, 0⟩ ∧ s.sp = 0 ∧ i = .ret)

/-- Every step keeps the invariant: memory canonical, stack depth at most 16, the snapshot equal to the framebuffer,
return addresses at most 0x1000, PC at most 0x10FE (10_state.md R24, R28; 44_display.md R194; the bound on PC is an
inference of the spec; the steps of all agents are the moves of log 2). -/
def Obligations.StepKeepsTheInvariant : Prop :=
  ∀ s t : State, s.Inv → step s = .next t → t.Inv

/-- The reset state meets the invariant: its memory is canonical, SP at most 16, the snapshot equal to the framebuffer,
the return addresses in the stack at most 0x1000, PC at most 0x10FE (10_state.md R38; the values themselves are
`ResetState`). -/
def Obligations.ResetMeetsTheInvariant : Prop := State.reset.Inv

/-- Every image, accepted or refused, leaves a state that meets the invariant (70_reset_and_hazards.md R260 to R262). -/
def Obligations.BootMeetsTheInvariant : Prop := ∀ image : List Byte, (boot image).Inv

/-- ST stays 0 in every step, of whichever agent (log 2), from a state where it is 0, so the buzzer stays off
(10_state.md R27; 60_exceptions.md R243: inferences of the spec; D4, log 10, and D33, log 13). -/
def Obligations.SoundStaysOff : Prop :=
  ∀ s t : State, s.st = 0 → step s = .next t → t.st = 0 ∧ soundOn t = false

/-- The stack slots at or above SP cannot be observed: two states that differ only there step alike and differ only
there again (10_state.md R28). Which agent steps is the list of log 2; the stop in FAULT is log 9. -/
def Obligations.DeadStackSlotsAreUnobservable : Prop :=
  ∀ s s' : State, SameButDeadSlots s s' →
    (∀ t, step s = .next t → ∃ t', step s' = .next t' ∧ SameButDeadSlots t t') ∧
    ∀ f, step s = .fault f → step s' = .fault f

/-- Canonical memories that read the same everywhere are the same list (20_memory.md R50, R61; the form is the
model's). -/
def Obligations.MemoriesThatReadAlikeAreEqual : Prop :=
  ∀ m m' : Memory, Memory.wf m → Memory.wf m' → (∀ a, a < 4096 → Memory.read m a = Memory.read m' a) → m = m'

/-! ### Reset and load -/

/-- WriteBlock(offset, bytes): all bytes are written, or none and LoadTooLarge (20_memory.md R54; that its info is the
length is 60_exceptions.md R230, the spec's decision D22, log 13). -/
def Obligations.WriteBlockIsAllOrNothing : Prop :=
  ∀ (offset : Nat) (bytes : List Byte) (s : State), Memory.wf s.mem →
    (offset + bytes.length ≤ 4096 → ∃ t, writeBlock offset bytes s = .ok t ∧
      (∀ (k : Nat) (h : k < bytes.length), t.byteAt (offset + k) = bytes[k]) ∧
      sameBytesOutside offset bytes.length s t ∧ unchangedBut [.memory] s t) ∧
    (4096 < offset + bytes.length → writeBlock offset bytes s = .error ⟨.loadTooLarge, bytes.length⟩)

/-- An image of at most 3584 bytes is written verbatim from 0x200 on the reset state and the run starts at 0x200
(70_reset_and_hazards.md R260, R261); a longer one writes nothing and no instruction executes (R262). The sequence of
reset and load is the spec's decision D31 (log 13); the stop of the step is the model's form, log 9. -/
def Obligations.ImagesLoadVerbatimOrAreRefused : Prop :=
  (∀ image : List Byte, image.length ≤ 3584 →
    (boot image).status = .run ∧ (boot image).pc = 0x200 ∧
    (∀ (k : Nat) (h : k < image.length), (boot image).byteAt (0x200 + k) = image[k]) ∧
    sameBytesOutside 0x200 image.length State.reset (boot image) ∧ unchangedBut [.memory] State.reset (boot image)) ∧
  (∀ image : List Byte, 3584 < image.length →
    (boot image).status = .fault ⟨.loadTooLarge, image.length⟩ ∧ unchangedBut [.status] State.reset (boot image) ∧
    step (boot image) = .fault (.stopped ⟨.loadTooLarge, image.length⟩))

/-- What reset leaves (10_state.md R33, R38), and that an empty image faults at its first fetch (70_reset_and_hazards.md
R262). The glyph bytes are general knowledge, log 3; the zeros elsewhere in memory, which the last clause rests on too,
are the spec's decision D19, log 4; that 0x0000 is unknown is D2, log 10. The last
clause also takes the list of moves to be empty, as the model's reset leaves it, so that the engine moves: log 2, unsafe,
because 60_exceptions.md R242 lets a tick come first. -/
def Obligations.ResetState : Prop :=
  (∀ r, State.reset.reg r = 0) ∧ State.reset.pc = 0x0200 ∧ State.reset.i = 0 ∧ State.reset.dt = 0 ∧
  State.reset.st = 0 ∧ State.reset.sp = 0 ∧ State.reset.status = .run ∧
  (∀ x y, pixel State.reset.fb x y = false) ∧ State.reset.snapshot = State.reset.fb ∧
  (∀ d k : Nat, d < 16 → k < 5 → State.reset.byteAt (5 * d + k) = (Config.glyphs.getD d []).getD k 0) ∧
  (∀ a, 0x50 ≤ a → a < 4096 → State.reset.byteAt a = 0) ∧
  (∃ t, step (boot []) = .next t ∧ t.status = .fault ⟨.unknownInstruction, 0x0000⟩ ∧ t.pc = 0x0202)
end

