-- ==== Sys2Proof/Laws/Decode.lean ====
section
/-! SUPPORT. The fields of assembled words, and words rebuilt from their fields. -/

namespace Sys2Proof.Laws

theorem instr_wellFormed (i : Instr) : i.wellFormed = true := by
  have h4 : ∀ v : BitVec 4, v.toNat < 16 := fun v => v.isLt
  have h8 : ∀ v : BitVec 8, v.toNat < 256 := fun v => v.isLt
  have h12 : ∀ v : BitVec 12, v.toNat < 4096 := fun v => v.isLt
  cases i <;> simp [Instr.wellFormed, operandsWellFormed, Instr.operands, Field.admits, Field.width, h4, h8, h12]

@[simp] theorem opField_wordA (op : Nibble) (nnn : BitVec 12) : opField (wordA op nnn) = op := by
  ext j hj
  simp only [opField, wordA, BitVec.getElem_setWidth, BitVec.getLsbD_ushiftRight, BitVec.getLsbD_append]
  grind

@[simp] theorem nnnField_wordA (op : Nibble) (nnn : BitVec 12) : nnnField (wordA op nnn) = nnn := by
  ext j hj
  simp only [nnnField, wordA, BitVec.getElem_setWidth, BitVec.getLsbD_append]
  grind

@[simp] theorem opField_wordXK (op : Nibble) (x : RegIx) (kk : Byte) : opField (wordXK op x kk) = op := by
  ext j hj
  simp only [opField, wordXK, BitVec.getElem_setWidth, BitVec.getLsbD_ushiftRight, BitVec.getLsbD_append]
  grind

@[simp] theorem xField_wordXK (op : Nibble) (x : RegIx) (kk : Byte) : xField (wordXK op x kk) = x := by
  ext j hj
  simp only [xField, wordXK, BitVec.getElem_setWidth, BitVec.getLsbD_ushiftRight, BitVec.getLsbD_append]
  grind

@[simp] theorem kkField_wordXK (op : Nibble) (x : RegIx) (kk : Byte) : kkField (wordXK op x kk) = kk := by
  ext j hj
  simp only [kkField, wordXK, BitVec.getElem_setWidth, BitVec.getLsbD_append]
  grind

@[simp] theorem opField_wordXYN (op : Nibble) (x y : RegIx) (n : Nibble) : opField (wordXYN op x y n) = op := by
  ext j hj
  simp only [opField, wordXYN, BitVec.getElem_setWidth, BitVec.getLsbD_ushiftRight, BitVec.getLsbD_append]
  grind

@[simp] theorem xField_wordXYN (op : Nibble) (x y : RegIx) (n : Nibble) : xField (wordXYN op x y n) = x := by
  ext j hj
  simp only [xField, wordXYN, BitVec.getElem_setWidth, BitVec.getLsbD_ushiftRight, BitVec.getLsbD_append]
  grind

@[simp] theorem yField_wordXYN (op : Nibble) (x y : RegIx) (n : Nibble) : yField (wordXYN op x y n) = y := by
  ext j hj
  simp only [yField, wordXYN, BitVec.getElem_setWidth, BitVec.getLsbD_ushiftRight, BitVec.getLsbD_append]
  grind

@[simp] theorem nField_wordXYN (op : Nibble) (x y : RegIx) (n : Nibble) : nField (wordXYN op x y n) = n := by
  ext j hj
  simp only [nField, wordXYN, BitVec.getElem_setWidth, BitVec.getLsbD_append]
  grind

/-- A word is its top nibble and its low 12 bits. -/
theorem wordA_fields (w : Word) : wordA (opField w) (nnnField w) = w := by
  ext j hj
  simp only [opField, nnnField, wordA]
  grind

/-- A word is its top nibble, `x` and its low byte. -/
theorem wordXK_fields (w : Word) : wordXK (opField w) (xField w) (kkField w) = w := by
  ext j hj
  simp only [opField, xField, kkField, wordXK]
  grind

/-- A word is its four nibbles. -/
theorem wordXYN_fields (w : Word) : wordXYN (opField w) (xField w) (yField w) (nField w) = w := by
  ext j hj
  simp only [opField, xField, yField, nField, wordXYN]
  grind

/-- The two bytes of a word make the word. -/
theorem wordOfBytes_bytes (w : Word) : wordOfBytes (highByte w) (lowByte w) = w := by
  ext j hj
  simp only [wordOfBytes, highByte, lowByte]
  grind

theorem highByte_wordOfBytes (hi lo : Byte) : highByte (wordOfBytes hi lo) = hi := by
  ext j hj
  simp only [wordOfBytes, highByte, BitVec.getElem_setWidth, BitVec.getLsbD_ushiftRight, BitVec.getLsbD_append]
  grind

theorem lowByte_wordOfBytes (hi lo : Byte) : lowByte (wordOfBytes hi lo) = lo := by
  ext j hj
  simp only [wordOfBytes, lowByte, BitVec.getElem_setWidth, BitVec.getLsbD_append]
  grind

/-- A word meets a row of format A exactly when its top nibble is the row's. -/
theorem and_F000_iff (w : Word) (op : Nibble) : w &&& 0xF000#16 = wordA op 0 ↔ opField w = op := by
  constructor
  · intro h
    have := congrArg opField h
    rw [opField_wordA] at this
    rw [← this]
    simp [opField]
    apply BitVec.eq_of_getLsbD_eq; intro j hj
    simp only [BitVec.getLsbD_setWidth, BitVec.getLsbD_ushiftRight, BitVec.getLsbD_and]
    have : j < 4 := hj
    interval_cases j <;> simp
  · intro h; subst h
    apply BitVec.eq_of_getLsbD_eq; intro j hj
    have : j < 16 := hj
    simp only [wordA, BitVec.getLsbD_append, BitVec.getLsbD_and, opField, BitVec.getLsbD_setWidth,
      BitVec.getLsbD_ushiftRight]
    interval_cases j <;> simp

/-- A word meets a row of format XY exactly when its top and bottom nibbles are the row's. -/
theorem and_F00F_iff (w : Word) (op n : Nibble) :
    w &&& 0xF00F#16 = wordXYN op 0 0 n ↔ opField w = op ∧ nField w = n := by
  constructor
  · intro h
    have h1 := congrArg opField h
    have h2 := congrArg nField h
    rw [opField_wordXYN] at h1
    rw [nField_wordXYN] at h2
    rw [← h1, ← h2]
    constructor <;>
    · simp [opField, nField]
      apply BitVec.eq_of_getLsbD_eq; intro j hj
      simp only [BitVec.getLsbD_setWidth, BitVec.getLsbD_ushiftRight, BitVec.getLsbD_and]
      have : j < 4 := hj
      interval_cases j <;> simp
  · rintro ⟨h, h'⟩; subst h; subst h'
    apply BitVec.eq_of_getLsbD_eq; intro j hj
    have : j < 16 := hj
    simp only [wordXYN, BitVec.getLsbD_append, BitVec.getLsbD_and, opField, nField,
      BitVec.getLsbD_setWidth, BitVec.getLsbD_ushiftRight]
    interval_cases j <;> simp

/-- A word meets a row of format XF exactly when its top nibble and its low byte are the row's. -/
theorem and_F0FF_iff (w : Word) (op : Nibble) (kk : Byte) :
    w &&& 0xF0FF#16 = wordXK op 0 kk ↔ opField w = op ∧ kkField w = kk := by
  constructor
  · intro h
    have h1 := congrArg opField h
    have h2 := congrArg kkField h
    rw [opField_wordXK] at h1
    rw [kkField_wordXK] at h2
    rw [← h1, ← h2]
    constructor
    · simp [opField]
      apply BitVec.eq_of_getLsbD_eq; intro j hj
      simp only [BitVec.getLsbD_setWidth, BitVec.getLsbD_ushiftRight, BitVec.getLsbD_and]
      have : j < 4 := hj
      interval_cases j <;> simp
    · simp [kkField]
      apply BitVec.eq_of_getLsbD_eq; intro j hj
      simp only [BitVec.getLsbD_setWidth, BitVec.getLsbD_and]
      have : j < 8 := hj
      interval_cases j <;> simp
  · rintro ⟨h, h'⟩; subst h; subst h'
    apply BitVec.eq_of_getLsbD_eq; intro j hj
    have : j < 16 := hj
    simp only [wordXK, BitVec.getLsbD_append, BitVec.getLsbD_and, opField, kkField,
      BitVec.getLsbD_setWidth, BitVec.getLsbD_ushiftRight]
    interval_cases j <;> simp

/-- A word of two bytes, the first the high one. -/
theorem wordOfBytes_toNat (a b : Byte) : (wordOfBytes a b).toNat = 256 * a.toNat + b.toNat := by
  simp only [wordOfBytes, BitVec.toNat_append]
  rw [← Nat.shiftLeft_add_eq_or_of_lt b.isLt, Nat.shiftLeft_eq]; omega

end Sys2Proof.Laws
end

