-- ==== Sys2Proof/Laws/Framebuffer.lean ====
section
/-! SUPPORT. The laws of the framebuffer: pixels determine it, what a toggle does, what one sprite row does. -/

namespace Sys2Proof.Machine

theorem pixel_of_lt (fb : FrameBuffer) {x y : Nat} (hx : x < Config.fbWidth) (hy : y < Config.fbHeight) :
    pixel fb x y = (fb[y])[x] := by
  simp [pixel, hx, hy]

/-- There is no pixel outside the grid. -/
theorem pixel_outside (fb : FrameBuffer) {x y : Nat} (h : ¬ (x < Config.fbWidth ∧ y < Config.fbHeight)) :
    pixel fb x y = false := by
  unfold pixel
  by_cases hy : y < Config.fbHeight
  · have hx : ¬ x < Config.fbWidth := fun hx => h ⟨hx, hy⟩
    simp [hy, Vector.getElem?_eq_none (Nat.le_of_not_lt hx)]
  · simp [Vector.getElem?_eq_none (Nat.le_of_not_lt hy)]

/-- Framebuffers with the same pixels are the same. -/
theorem FrameBuffer.ext_pixels {f g : FrameBuffer}
    (h : ∀ x y, x < Config.fbWidth → y < Config.fbHeight → pixel f x y = pixel g x y) : f = g := by
  apply Vector.ext
  intro y hy
  apply Vector.ext
  intro x hx
  have := h x y hx hy
  rwa [pixel_of_lt f hx hy, pixel_of_lt g hx hy] at this

theorem pixel_blankScreen (x y : Nat) : pixel blankScreen x y = false := by
  by_cases h : x < Config.fbWidth ∧ y < Config.fbHeight
  · rw [pixel_of_lt _ h.1 h.2]; simp [blankScreen]
  · exact pixel_outside _ h

/-- A toggle inverts its pixel and leaves every other one. -/
theorem pixel_togglePixel (fb : FrameBuffer) {x y : Nat} (hx : x < Config.fbWidth) (hy : y < Config.fbHeight)
    (x' y' : Nat) :
    pixel (togglePixel fb x y) x' y' = if x' = x ∧ y' = y then !pixel fb x y else pixel fb x' y' := by
  by_cases h' : x' < Config.fbWidth ∧ y' < Config.fbHeight
  · obtain ⟨hx', hy'⟩ := h'
    rw [pixel_of_lt _ hx' hy', pixel_of_lt fb hx' hy', togglePixel, dif_pos hy]
    by_cases hyy : y' = y
    · subst hyy
      rw [Vector.getElem_set_self, Vector.getElem_setIfInBounds]
      by_cases hxx : x' = x
      · simp [hxx]
      · simp [hxx, Ne.symm hxx]
    · rw [Vector.getElem_set_ne _ _ (Ne.symm hyy)]
      simp [hyy]
  · rw [pixel_outside _ h', pixel_outside _ h', if_neg]
    rintro ⟨rfl, rfl⟩
    exact h' ⟨hx, hy⟩

/-- What one bit does to a pixel. -/
theorem pixel_drawBit (col row : Nat) (bit : Bool) (p : FrameBuffer × Bool) (hr : row < Config.fbHeight)
    (x y : Nat) :
    pixel (drawBit col row bit p).1 x y =
      (pixel p.1 x y ^^ (decide (x < Config.fbWidth ∧ x = col ∧ y = row) && bit)) := by
  unfold drawBit
  by_cases hb : bit = true
  · by_cases hc : col < Config.fbWidth
    · simp only [hb, hc, decide_true, Bool.and_self, if_true]
      rw [pixel_togglePixel _ hc hr]
      by_cases h : x = col ∧ y = row
      · obtain ⟨rfl, rfl⟩ := h; simp [hc]
      · rw [if_neg h]
        have : ¬ (x < Config.fbWidth ∧ x = col ∧ y = row) := fun q => h q.2
        simp [this]
    · have : ¬ (x < Config.fbWidth ∧ x = col ∧ y = row) := by rintro ⟨a, rfl, _⟩; exact hc a
      simp [hc, this]
  · simp [hb]

/-- What one bit does to the collision. -/
theorem collision_drawBit (col row : Nat) (bit : Bool) (p : FrameBuffer × Bool) :
    (drawBit col row bit p).2 = (p.2 || (bit && decide (col < Config.fbWidth) && pixel p.1 col row)) := by
  unfold drawBit
  cases bit
  · simp
  · by_cases hc : col < Config.fbWidth
    · simp [hc]
    · simp [hc]

/-- The bit of a sprite row that falls on column `x`, for a row that starts at column `x0`. -/
def rowBit (x0 : Nat) (b : Byte) (x : Nat) : Bool :=
  decide (x < Config.fbWidth ∧ x0 ≤ x ∧ x < x0 + 8) && b.getLsbD (7 - (x - x0))

/-- The first `n` bits of a sprite row: pixels and collision. -/
theorem drawRow_prefix (x0 row : Nat) (b : Byte) (p : FrameBuffer × Bool) (hr : row < Config.fbHeight) (n : Nat)
    (hn : n ≤ 8) :
    (∀ x y, pixel ((List.range n).foldl (fun q j => drawBit (x0 + j) row (b.getLsbD (7 - j)) q) p).1 x y =
        (pixel p.1 x y ^^ (decide (y = row ∧ x < x0 + n) && rowBit x0 b x))) ∧
      (((List.range n).foldl (fun q j => drawBit (x0 + j) row (b.getLsbD (7 - j)) q) p).2 = true ↔
        p.2 = true ∨ ∃ x, x < x0 + n ∧ rowBit x0 b x = true ∧ pixel p.1 x row = true) := by
  induction n with
  | zero =>
    constructor
    · intro x y
      by_cases h : x0 ≤ x
      · simp [show ¬ x < x0 by omega]
      · simp [rowBit, h]
    · simp only [List.range_zero, List.foldl_nil, Nat.add_zero]
      constructor
      · exact Or.inl
      · rintro (h | ⟨x, hx, hb, _⟩)
        · exact h
        · simp [rowBit] at hb; omega
  | succ n ih =>
    obtain ⟨ihp, ihc⟩ := ih (by omega)
    rw [List.range_succ, List.foldl_append, List.foldl_cons, List.foldl_nil]
    constructor
    · intro x y
      rw [pixel_drawBit _ _ _ _ hr, ihp, Bool.xor_assoc]
      congr 1
      by_cases hy : y = row
      · by_cases hx : x = x0 + n
        · subst hx
          simp [rowBit, hy, show n < 8 by omega]
        · have e : (x < x0 + (n + 1)) = (x < x0 + n) := by simp only [eq_iff_iff]; omega
          simp [hx, e]
      · simp [hy]
    · rw [collision_drawBit, Bool.or_eq_true, ihc, ihp]
      have hsame : (decide (row = row ∧ x0 + n < x0 + n) && rowBit x0 b (x0 + n)) = false := by simp
      rw [hsame, Bool.xor_false]
      have hbit : (b.getLsbD (7 - n) && decide (x0 + n < Config.fbWidth)) = rowBit x0 b (x0 + n) := by
        simp [rowBit, show n < 8 by omega, Bool.and_comm]
      rw [hbit, Bool.and_eq_true]
      constructor
      · rintro ((h | ⟨x, hx, h⟩) | h)
        · exact Or.inl h
        · exact Or.inr ⟨x, by omega, h⟩
        · exact Or.inr ⟨x0 + n, by omega, h⟩
      · rintro (h | ⟨x, hx, h⟩)
        · exact Or.inl (Or.inl h)
        · by_cases hxn : x = x0 + n
          · subst hxn; exact Or.inr h
          · exact Or.inl (Or.inr ⟨x, by omega, h⟩)

/-- What one sprite row does to the pixels. -/
theorem pixel_drawRow (x0 row : Nat) (b : Byte) (p : FrameBuffer × Bool) (hr : row < Config.fbHeight) (x y : Nat) :
    pixel (drawRow x0 row b p).1 x y = (pixel p.1 x y ^^ (decide (y = row) && rowBit x0 b x)) := by
  rw [drawRow, (drawRow_prefix x0 row b p hr 8 (Nat.le_refl 8)).1]
  congr 1
  by_cases h : x < x0 + 8
  · simp [h]
  · simp [h, rowBit]

/-- What one sprite row does to the collision. -/
theorem collision_drawRow (x0 row : Nat) (b : Byte) (p : FrameBuffer × Bool) (hr : row < Config.fbHeight) :
    (drawRow x0 row b p).2 = true ↔
      p.2 = true ∨ ∃ x, rowBit x0 b x = true ∧ pixel p.1 x row = true := by
  rw [drawRow, (drawRow_prefix x0 row b p hr 8 (Nat.le_refl 8)).2]
  constructor
  · rintro (h | ⟨x, _, h⟩)
    · exact Or.inl h
    · exact Or.inr ⟨x, h⟩
  · rintro (h | ⟨x, hb, h⟩)
    · exact Or.inl h
    · refine Or.inr ⟨x, ?_, hb, h⟩
      simp [rowBit] at hb
      omega

/-- Rows drawn from `row` down XOR their bits into the rows they fall on. -/
theorem pixel_drawRows (x0 : Nat) : ∀ (bytes : List Byte) (row : Nat) (p : FrameBuffer × Bool) (x y : Nat),
    y < Config.fbHeight → pixel (drawRows x0 row bytes p).1 x y =
      (pixel p.1 x y ^^ (decide (row ≤ y ∧ y < row + bytes.length) &&
        rowBit x0 (bytes.getD (y - row) 0) x)) := by
  intro bytes
  induction bytes with
  | nil =>
    intro row p x y hy
    simp only [drawRows, List.length_nil]
    rw [show decide (row ≤ y ∧ y < row + 0) = false by simp]
    simp
  | cons b bs ih =>
    intro row p x y hy
    simp only [drawRows]
    split
    · rename_i hr
      rw [ih _ _ _ _ hy, pixel_drawRow _ _ _ _ hr, Bool.xor_assoc]
      congr 1
      by_cases h : y = row
      · subst h; simp
      · by_cases h2 : row < y
        · obtain ⟨d, rfl⟩ : ∃ d, y = row + 1 + d := ⟨y - (row+1), by omega⟩
          rw [show row + 1 + d - (row + 1) = d by omega, show row + 1 + d - row = d + 1 by omega]
          have e1 : decide (row + 1 ≤ row + 1 + d ∧ row + 1 + d < row + 1 + bs.length) =
              decide (d < bs.length) := by simp
          have e2 : decide (row ≤ row + 1 + d ∧ row + 1 + d < row + (b :: bs).length) =
              decide (d < bs.length) := by simp only [List.length_cons, decide_eq_decide]; omega
          rw [e1, e2, show decide (row + 1 + d = row) = false by simp; omega]
          simp
        · rw [show decide (row + 1 ≤ y ∧ y < row + 1 + bs.length) = false by simp; omega,
            show decide (row ≤ y ∧ y < row + (b :: bs).length) = false by simp; omega]
          simp [h]
    · rename_i hr
      rw [show decide (row ≤ y ∧ y < row + (b :: bs).length) = false by simp [Config.fbHeight] at *; omega]
      simp

/-- Rows drawn from `row` down collide exactly where one of their set bits meets a set pixel. -/
theorem collision_drawRows (x0 : Nat) : ∀ (bytes : List Byte) (row : Nat) (p : FrameBuffer × Bool),
    (drawRows x0 row bytes p).2 = true ↔ p.2 = true ∨ ∃ x y, y < Config.fbHeight ∧ row ≤ y ∧ y < row + bytes.length ∧
      rowBit x0 (bytes.getD (y - row) 0) x = true ∧ pixel p.1 x y = true := by
  intro bytes
  induction bytes with
  | nil => intro row p; simp [drawRows]; omega
  | cons b bs ih =>
    intro row p
    simp only [drawRows]
    split
    · rename_i hr
      rw [ih, collision_drawRow _ _ _ _ hr, or_assoc]
      apply or_congr Iff.rfl
      constructor
      · rintro (⟨x, h1, h2⟩ | ⟨x, y, h1, h2, h3, h4, h5⟩)
        · exact ⟨x, row, hr, by omega, by simp, by simpa using h1, h2⟩
        · rw [pixel_drawRow _ _ _ _ hr] at h5
          obtain ⟨d, rfl⟩ : ∃ d, y = row + 1 + d := ⟨y - (row+1), by omega⟩
          refine ⟨x, row + 1 + d, h1, by omega, by simp; omega, ?_, ?_⟩
          · rw [show row + 1 + d - (row + 1) = d by omega] at h4
            rw [show row + 1 + d - row = d + 1 by omega]; simpa using h4
          · simpa [show ¬ (row + 1 + d = row) by omega] using h5
      · rintro ⟨x, y, h1, h2, h3, h4, h5⟩
        by_cases h : y = row
        · subst h; left; exact ⟨x, by simpa using h4, h5⟩
        · right
          obtain ⟨d, rfl⟩ : ∃ d, y = row + 1 + d := ⟨y - (row+1), by omega⟩
          refine ⟨x, row + 1 + d, h1, by omega, by simp at h3; omega, ?_, ?_⟩
          · rw [show row + 1 + d - (row + 1) = d by omega]
            rw [show row + 1 + d - row = d + 1 by omega] at h4; simpa using h4
          · rw [pixel_drawRow _ _ _ _ hr]; simpa [show ¬ (row + 1 + d = row) by omega] using h5
    · rename_i hr
      constructor
      · exact Or.inl
      · rintro (h | ⟨x, y, h1, h2, _⟩)
        · exact h
        · exact absurd (Nat.lt_of_le_of_lt h2 h1) hr

end Sys2Proof.Machine
end

