-- ==== Sys2Proof/Laws/Memory.lean ====
section
/-! SUPPORT. The laws of memory: read after write, the canonical form and its keeping, and what the sequences of
reads and writes do. -/

namespace Sys2Proof.Machine

/-! ### Read after write -/

theorem Memory.read_nil (a : Nat) : Memory.read [] a = initialByte a := rfl

theorem Memory.read_cons (k : Nat) (b : Byte) (rest : Memory) (a : Nat) :
    Memory.read ((k, b) :: rest) a = if k = a then b else Memory.read rest a := rfl

/-- In a canonical list from `lo` on, an address below `lo` is not listed. -/
theorem Memory.read_below {lo : Nat} {m : Memory} (h : Memory.wfFrom lo m = true) {a : Nat} (ha : a < lo) :
    Memory.read m a = initialByte a := by
  induction m generalizing lo with
  | nil => rfl
  | cons e rest ih =>
    obtain ⟨k, b⟩ := e
    simp only [Memory.wfFrom, Bool.and_eq_true, decide_eq_true_eq] at h
    rw [Memory.read_cons, if_neg (by omega), ih h.2 (by omega)]

theorem Memory.wfFrom_mono {lo lo' : Nat} {m : Memory} (h : Memory.wfFrom lo m = true) (hl : lo' ≤ lo) :
    Memory.wfFrom lo' m = true := by
  cases m with
  | nil => rfl
  | cons e rest =>
    obtain ⟨k, b⟩ := e
    simp only [Memory.wfFrom, Bool.and_eq_true, decide_eq_true_eq] at h ⊢
    exact ⟨⟨⟨by omega, h.1.1.2⟩, h.1.2⟩, h.2⟩

theorem Memory.wfFrom_cons {lo a : Nat} {b : Byte} {rest : Memory} (hlo : lo ≤ a) (ha : a < Config.memSize)
    (h : Memory.wfFrom (a + 1) rest = true) : Memory.wfFrom lo (Memory.cons a b rest) = true := by
  unfold Memory.cons
  split
  · exact Memory.wfFrom_mono h (by omega)
  · rename_i hb
    simp [Memory.wfFrom, hlo, ha, hb, h]

/-- A write keeps the canonical form. -/
theorem Memory.wfFrom_write {lo : Nat} {m : Memory} (h : Memory.wfFrom lo m = true) {a : Nat} (b : Byte)
    (hlo : lo ≤ a) (ha : a < Config.memSize) : Memory.wfFrom lo (Memory.write m a b) = true := by
  induction m generalizing lo with
  | nil => exact Memory.wfFrom_cons hlo ha rfl
  | cons e rest ih =>
    obtain ⟨k, c⟩ := e
    have h' := h
    simp only [Memory.wfFrom, Bool.and_eq_true, decide_eq_true_eq] at h
    simp only [Memory.write]
    split
    · refine Memory.wfFrom_cons hlo ha ?_
      simp only [Memory.wfFrom, Bool.and_eq_true, decide_eq_true_eq]
      exact ⟨⟨⟨by omega, h.1.1.2⟩, h.1.2⟩, h.2⟩
    · split
      · rename_i hk
        subst hk
        exact Memory.wfFrom_cons hlo ha h.2
      · simp only [Memory.wfFrom, Bool.and_eq_true, decide_eq_true_eq]
        exact ⟨h.1, ih h.2 (by omega)⟩

theorem Memory.wf_write {m : Memory} (h : Memory.wf m = true) {a : Nat} (b : Byte) (ha : a < Config.memSize) :
    Memory.wf (Memory.write m a b) = true :=
  Memory.wfFrom_write h b (Nat.zero_le a) ha

theorem Memory.read_write_from {lo : Nat} {m : Memory} (h : Memory.wfFrom lo m = true) (a : Nat) (b : Byte)
    (c : Nat) : Memory.read (Memory.write m a b) c = if c = a then b else Memory.read m c := by
  induction m generalizing lo with
  | nil =>
    simp only [Memory.write, Memory.cons, Memory.read_nil]
    split
    · rename_i hb; simp only [Memory.read_nil]; split <;> simp_all
    · simp only [Memory.read_cons, Memory.read_nil, eq_comm]
  | cons e rest ih =>
    obtain ⟨k, d⟩ := e
    have h' := h
    simp only [Memory.wfFrom, Bool.and_eq_true, decide_eq_true_eq] at h
    simp only [Memory.write]
    split
    · rename_i hak
      have hbelow : Memory.read ((k, d) :: rest) a = initialByte a := by
        rw [Memory.read_cons, if_neg (by omega), Memory.read_below h.2 (by omega)]
      unfold Memory.cons
      split
      · rename_i hb
        split
        · rename_i hc; rw [hc, hbelow, hb]
        · rfl
      · rw [Memory.read_cons]; simp only [eq_comm]
    · split
      · rename_i hk
        subst hk
        have hbelow : Memory.read rest a = initialByte a := Memory.read_below h.2 (by omega)
        unfold Memory.cons
        split
        · rename_i hb
          split
          · rename_i hc; rw [hc, hbelow, hb]
          · rename_i hc; rw [Memory.read_cons, if_neg (Ne.symm hc)]
        · rw [Memory.read_cons, Memory.read_cons]
          by_cases hc : c = a
          · simp [hc]
          · simp [hc, Ne.symm hc]
      · rename_i hlt hne
        rw [Memory.read_cons, Memory.read_cons, ih h.2]
        by_cases hc : c = a
        · simp [hc, Ne.symm hne]
        · simp [hc]

/-- The byte just written reads back, and every other byte is as before. -/
theorem Memory.read_write {m : Memory} (h : Memory.wf m = true) (a : Nat) (b : Byte) (c : Nat) :
    Memory.read (Memory.write m a b) c = if c = a then b else Memory.read m c :=
  Memory.read_write_from h a b c

theorem Memory.wf_nil : Memory.wf [] = true := rfl

/-! ### The checked accesses -/

theorem memRead_in (m : Memory) {a : Nat} (h : a < Config.memSize) : memRead m a = .ok (Memory.read m a) := by
  simp [memRead, h]

theorem memRead_out (m : Memory) {a : Nat} (h : ¬ a < Config.memSize) : memRead m a = .error (accessFault a) := by
  simp [memRead, h]

theorem memWrite_in (m : Memory) {a : Nat} (b : Byte) (h : a < Config.memSize) :
    memWrite m a b = .ok (Memory.write m a b) := by
  simp [memWrite, h]

theorem memWrite_out (m : Memory) {a : Nat} (b : Byte) (h : ¬ a < Config.memSize) :
    memWrite m a b = .error (accessFault a) := by
  simp [memWrite, h]

/-! ### Sequences -/

/-- Reads that stay inside memory give every byte and no fault. -/
theorem readSeq_in (m : Memory) (a count : Nat) (h : a + count ≤ Config.memSize) :
    readSeq m a count = ((List.range count).map fun k => Memory.read m (a + k), none) := by
  induction count generalizing a with
  | zero => rfl
  | succ n ih =>
    simp only [readSeq, memRead_in m (show a < Config.memSize by omega), ih (a + 1) (by omega)]
    rw [List.range_succ_eq_map]
    simp only [List.map_cons, List.map_map, Nat.add_zero, Function.comp_def, Nat.succ_eq_add_one]
    simp only [show ∀ k, a + 1 + k = a + (k + 1) from fun k => by omega]

/-- Reads that leave memory give the bytes below 4096 and fault at the first address outside. -/
theorem readSeq_out (m : Memory) (a count : Nat) (hc : 0 < count) (h : ¬ a + count ≤ Config.memSize) :
    readSeq m a count =
      ((List.range (Config.memSize - a)).map fun k => Memory.read m (a + k),
        some (accessFault (max a Config.memSize))) := by
  induction count generalizing a with
  | zero => omega
  | succ n ih =>
    by_cases ha : a < Config.memSize
    · simp only [readSeq, memRead_in m ha]
      have hn : 0 < n := by omega
      rw [ih (a + 1) hn (by omega)]
      rw [show Config.memSize - a = (Config.memSize - (a + 1)) + 1 by omega, List.range_succ_eq_map]
      rw [show max (a + 1) Config.memSize = max a Config.memSize by omega]
      simp only [List.map_cons, List.map_map, Nat.add_zero, Function.comp_def, Nat.succ_eq_add_one]
      simp only [show ∀ k, a + 1 + k = a + (k + 1) from fun k => by omega]
    · simp only [readSeq, memRead_out m ha]
      rw [show Config.memSize - a = 0 by omega, show max a Config.memSize = a by omega]
      rfl

/-- Whether a sequence of writes faults depends only on the addresses. -/
theorem writeSeq_fault (lands : Nat → Bool) (k a : Nat) (bs : List Byte) (m : Memory) :
    (writeSeq lands k a bs m).2 =
      if a + bs.length ≤ Config.memSize ∨ bs = [] then none else some (accessFault (max a Config.memSize)) := by
  induction bs generalizing k a m with
  | nil => simp [writeSeq]
  | cons b bs ih =>
    by_cases ha : a < Config.memSize
    · simp only [writeSeq, memWrite_in m b ha, ih]
      rw [show max (a + 1) Config.memSize = max a Config.memSize by omega]
      by_cases hbs : bs = []
      · subst hbs; simp; omega
      · have : 0 < bs.length := List.length_pos_iff.mpr hbs
        simp only [hbs, or_false, List.length_cons, reduceCtorEq]
        congr 1
        simp only [eq_iff_iff]
        omega
    · simp only [writeSeq, memWrite_out m b ha, List.length_cons, reduceCtorEq, or_false]
      rw [if_neg (by omega), show max a Config.memSize = a by omega]

/-- A sequence of writes keeps the canonical form. -/
theorem writeSeq_wf (lands : Nat → Bool) (k a : Nat) (bs : List Byte) {m : Memory} (h : Memory.wf m = true) :
    Memory.wf (writeSeq lands k a bs m).1 = true := by
  induction bs generalizing k a m with
  | nil => exact h
  | cons b bs ih =>
    by_cases ha : a < Config.memSize
    · simp only [writeSeq, memWrite_in m b ha]
      apply ih
      split
      · exact Memory.wf_write h b ha
      · exact h
    · simp only [writeSeq, memWrite_out m b ha]; exact h

/-- What a byte reads as after a sequence of writes: the byte written there, if its address is in memory and its
write landed, else the byte of before. -/
theorem writeSeq_read (lands : Nat → Bool) (k a : Nat) (bs : List Byte) {m : Memory} (h : Memory.wf m = true)
    (c : Nat) :
    Memory.read (writeSeq lands k a bs m).1 c =
      if a ≤ c ∧ c < a + bs.length ∧ c < Config.memSize ∧ lands (k + (c - a)) = true then bs.getD (c - a) 0
      else Memory.read m c := by
  induction bs generalizing k a m with
  | nil =>
    simp only [writeSeq, List.length_nil]
    rw [if_neg (by omega)]
  | cons b bs ih =>
    by_cases ha : a < Config.memSize
    · simp only [writeSeq, memWrite_in m b ha]
      have hm : Memory.wf (if lands k then Memory.write m a b else m) = true := by
        split
        · exact Memory.wf_write h b ha
        · exact h
      rw [ih (k + 1) (a + 1) hm]
      by_cases hc : c = a
      · subst hc
        rw [if_neg (by omega)]
        by_cases hl : lands k = true
        · simp [hl, Memory.read_write h, ha]
        · simp [hl]
      · have hread : Memory.read (if lands k then Memory.write m a b else m) c = Memory.read m c := by
          split
          · rw [Memory.read_write h, if_neg hc]
          · rfl
        rw [hread]
        by_cases hac : a < c
        · obtain ⟨d, rfl⟩ : ∃ d, c = a + 1 + d := ⟨c - (a + 1), by omega⟩
          have e1 : a + 1 + d - (a + 1) = d := by omega
          have e2 : a + 1 + d - a = d + 1 := by omega
          have e3 : k + 1 + d = k + (d + 1) := by omega
          rw [e1, e2, e3]
          simp only [List.getD_cons_succ, List.length_cons]
          congr 1
          simp only [eq_iff_iff]
          constructor
          · rintro ⟨h1, h2, h3, h4⟩; exact ⟨by omega, by omega, h3, h4⟩
          · rintro ⟨h1, h2, h3, h4⟩; exact ⟨by omega, by omega, h3, h4⟩
        · rw [if_neg (by omega), if_neg (by omega)]
    · simp only [writeSeq, memWrite_out m b ha]
      rw [if_neg (by omega)]

end Sys2Proof.Machine
end

