-- ==== Sys2Proof/Laws/State.lean ====
section
/-! SUPPORT. One lemma per field per update of State, and the reads through each update. -/

namespace Sys2Proof.Machine

@[simp] theorem State.setReg_v (s : State) (r : RegIx) (b : Byte) : (s.setReg r b).v = s.v.set r.toNat b r.isLt := rfl
@[simp] theorem State.setReg_pc (s : State) (r : RegIx) (b : Byte) : (s.setReg r b).pc = s.pc := rfl
@[simp] theorem State.setReg_i (s : State) (r : RegIx) (b : Byte) : (s.setReg r b).i = s.i := rfl
@[simp] theorem State.setReg_dt (s : State) (r : RegIx) (b : Byte) : (s.setReg r b).dt = s.dt := rfl
@[simp] theorem State.setReg_st (s : State) (r : RegIx) (b : Byte) : (s.setReg r b).st = s.st := rfl
@[simp] theorem State.setReg_stack (s : State) (r : RegIx) (b : Byte) : (s.setReg r b).stack = s.stack := rfl
@[simp] theorem State.setReg_sp (s : State) (r : RegIx) (b : Byte) : (s.setReg r b).sp = s.sp := rfl
@[simp] theorem State.setReg_fb (s : State) (r : RegIx) (b : Byte) : (s.setReg r b).fb = s.fb := rfl
@[simp] theorem State.setReg_mem (s : State) (r : RegIx) (b : Byte) : (s.setReg r b).mem = s.mem := rfl
@[simp] theorem State.setReg_status (s : State) (r : RegIx) (b : Byte) : (s.setReg r b).status = s.status := rfl
@[simp] theorem State.setReg_snapshot (s : State) (r : RegIx) (b : Byte) : (s.setReg r b).snapshot = s.snapshot := rfl
@[simp] theorem State.setReg_keyDown (s : State) (r : RegIx) (b : Byte) : (s.setReg r b).keyDown = s.keyDown := rfl
@[simp] theorem State.setReg_rng (s : State) (r : RegIx) (b : Byte) : (s.setReg r b).rng = s.rng := rfl
@[simp] theorem State.setReg_turns (s : State) (r : RegIx) (b : Byte) : (s.setReg r b).turns = s.turns := rfl
@[simp] theorem State.setReg_draws (s : State) (r : RegIx) (b : Byte) : (s.setReg r b).draws = s.draws := rfl

@[simp] theorem State.setPc_v (s : State) (a : Word) : (s.setPc a).v = s.v := rfl
@[simp] theorem State.setPc_pc (s : State) (a : Word) : (s.setPc a).pc = a := rfl
@[simp] theorem State.setPc_i (s : State) (a : Word) : (s.setPc a).i = s.i := rfl
@[simp] theorem State.setPc_dt (s : State) (a : Word) : (s.setPc a).dt = s.dt := rfl
@[simp] theorem State.setPc_st (s : State) (a : Word) : (s.setPc a).st = s.st := rfl
@[simp] theorem State.setPc_stack (s : State) (a : Word) : (s.setPc a).stack = s.stack := rfl
@[simp] theorem State.setPc_sp (s : State) (a : Word) : (s.setPc a).sp = s.sp := rfl
@[simp] theorem State.setPc_fb (s : State) (a : Word) : (s.setPc a).fb = s.fb := rfl
@[simp] theorem State.setPc_mem (s : State) (a : Word) : (s.setPc a).mem = s.mem := rfl
@[simp] theorem State.setPc_status (s : State) (a : Word) : (s.setPc a).status = s.status := rfl
@[simp] theorem State.setPc_snapshot (s : State) (a : Word) : (s.setPc a).snapshot = s.snapshot := rfl
@[simp] theorem State.setPc_keyDown (s : State) (a : Word) : (s.setPc a).keyDown = s.keyDown := rfl
@[simp] theorem State.setPc_rng (s : State) (a : Word) : (s.setPc a).rng = s.rng := rfl
@[simp] theorem State.setPc_turns (s : State) (a : Word) : (s.setPc a).turns = s.turns := rfl
@[simp] theorem State.setPc_draws (s : State) (a : Word) : (s.setPc a).draws = s.draws := rfl

@[simp] theorem State.setI_v (s : State) (a : Word) : (s.setI a).v = s.v := rfl
@[simp] theorem State.setI_pc (s : State) (a : Word) : (s.setI a).pc = s.pc := rfl
@[simp] theorem State.setI_i (s : State) (a : Word) : (s.setI a).i = a := rfl
@[simp] theorem State.setI_dt (s : State) (a : Word) : (s.setI a).dt = s.dt := rfl
@[simp] theorem State.setI_st (s : State) (a : Word) : (s.setI a).st = s.st := rfl
@[simp] theorem State.setI_stack (s : State) (a : Word) : (s.setI a).stack = s.stack := rfl
@[simp] theorem State.setI_sp (s : State) (a : Word) : (s.setI a).sp = s.sp := rfl
@[simp] theorem State.setI_fb (s : State) (a : Word) : (s.setI a).fb = s.fb := rfl
@[simp] theorem State.setI_mem (s : State) (a : Word) : (s.setI a).mem = s.mem := rfl
@[simp] theorem State.setI_status (s : State) (a : Word) : (s.setI a).status = s.status := rfl
@[simp] theorem State.setI_snapshot (s : State) (a : Word) : (s.setI a).snapshot = s.snapshot := rfl
@[simp] theorem State.setI_keyDown (s : State) (a : Word) : (s.setI a).keyDown = s.keyDown := rfl
@[simp] theorem State.setI_rng (s : State) (a : Word) : (s.setI a).rng = s.rng := rfl
@[simp] theorem State.setI_turns (s : State) (a : Word) : (s.setI a).turns = s.turns := rfl
@[simp] theorem State.setI_draws (s : State) (a : Word) : (s.setI a).draws = s.draws := rfl

@[simp] theorem State.setDt_v (s : State) (b : Byte) : (s.setDt b).v = s.v := rfl
@[simp] theorem State.setDt_pc (s : State) (b : Byte) : (s.setDt b).pc = s.pc := rfl
@[simp] theorem State.setDt_i (s : State) (b : Byte) : (s.setDt b).i = s.i := rfl
@[simp] theorem State.setDt_dt (s : State) (b : Byte) : (s.setDt b).dt = b := rfl
@[simp] theorem State.setDt_st (s : State) (b : Byte) : (s.setDt b).st = s.st := rfl
@[simp] theorem State.setDt_stack (s : State) (b : Byte) : (s.setDt b).stack = s.stack := rfl
@[simp] theorem State.setDt_sp (s : State) (b : Byte) : (s.setDt b).sp = s.sp := rfl
@[simp] theorem State.setDt_fb (s : State) (b : Byte) : (s.setDt b).fb = s.fb := rfl
@[simp] theorem State.setDt_mem (s : State) (b : Byte) : (s.setDt b).mem = s.mem := rfl
@[simp] theorem State.setDt_status (s : State) (b : Byte) : (s.setDt b).status = s.status := rfl
@[simp] theorem State.setDt_snapshot (s : State) (b : Byte) : (s.setDt b).snapshot = s.snapshot := rfl
@[simp] theorem State.setDt_keyDown (s : State) (b : Byte) : (s.setDt b).keyDown = s.keyDown := rfl
@[simp] theorem State.setDt_rng (s : State) (b : Byte) : (s.setDt b).rng = s.rng := rfl
@[simp] theorem State.setDt_turns (s : State) (b : Byte) : (s.setDt b).turns = s.turns := rfl
@[simp] theorem State.setDt_draws (s : State) (b : Byte) : (s.setDt b).draws = s.draws := rfl

@[simp] theorem State.setSt_v (s : State) (b : Byte) : (s.setSt b).v = s.v := rfl
@[simp] theorem State.setSt_pc (s : State) (b : Byte) : (s.setSt b).pc = s.pc := rfl
@[simp] theorem State.setSt_i (s : State) (b : Byte) : (s.setSt b).i = s.i := rfl
@[simp] theorem State.setSt_dt (s : State) (b : Byte) : (s.setSt b).dt = s.dt := rfl
@[simp] theorem State.setSt_st (s : State) (b : Byte) : (s.setSt b).st = b := rfl
@[simp] theorem State.setSt_stack (s : State) (b : Byte) : (s.setSt b).stack = s.stack := rfl
@[simp] theorem State.setSt_sp (s : State) (b : Byte) : (s.setSt b).sp = s.sp := rfl
@[simp] theorem State.setSt_fb (s : State) (b : Byte) : (s.setSt b).fb = s.fb := rfl
@[simp] theorem State.setSt_mem (s : State) (b : Byte) : (s.setSt b).mem = s.mem := rfl
@[simp] theorem State.setSt_status (s : State) (b : Byte) : (s.setSt b).status = s.status := rfl
@[simp] theorem State.setSt_snapshot (s : State) (b : Byte) : (s.setSt b).snapshot = s.snapshot := rfl
@[simp] theorem State.setSt_keyDown (s : State) (b : Byte) : (s.setSt b).keyDown = s.keyDown := rfl
@[simp] theorem State.setSt_rng (s : State) (b : Byte) : (s.setSt b).rng = s.rng := rfl
@[simp] theorem State.setSt_turns (s : State) (b : Byte) : (s.setSt b).turns = s.turns := rfl
@[simp] theorem State.setSt_draws (s : State) (b : Byte) : (s.setSt b).draws = s.draws := rfl

@[simp] theorem State.setSlot_v (s : State) (k : Nat) (a : Word) : (s.setSlot k a).v = s.v := rfl
@[simp] theorem State.setSlot_pc (s : State) (k : Nat) (a : Word) : (s.setSlot k a).pc = s.pc := rfl
@[simp] theorem State.setSlot_i (s : State) (k : Nat) (a : Word) : (s.setSlot k a).i = s.i := rfl
@[simp] theorem State.setSlot_dt (s : State) (k : Nat) (a : Word) : (s.setSlot k a).dt = s.dt := rfl
@[simp] theorem State.setSlot_st (s : State) (k : Nat) (a : Word) : (s.setSlot k a).st = s.st := rfl
@[simp] theorem State.setSlot_stack (s : State) (k : Nat) (a : Word) : (s.setSlot k a).stack = s.stack.setIfInBounds k a := rfl
@[simp] theorem State.setSlot_sp (s : State) (k : Nat) (a : Word) : (s.setSlot k a).sp = s.sp := rfl
@[simp] theorem State.setSlot_fb (s : State) (k : Nat) (a : Word) : (s.setSlot k a).fb = s.fb := rfl
@[simp] theorem State.setSlot_mem (s : State) (k : Nat) (a : Word) : (s.setSlot k a).mem = s.mem := rfl
@[simp] theorem State.setSlot_status (s : State) (k : Nat) (a : Word) : (s.setSlot k a).status = s.status := rfl
@[simp] theorem State.setSlot_snapshot (s : State) (k : Nat) (a : Word) : (s.setSlot k a).snapshot = s.snapshot := rfl
@[simp] theorem State.setSlot_keyDown (s : State) (k : Nat) (a : Word) : (s.setSlot k a).keyDown = s.keyDown := rfl
@[simp] theorem State.setSlot_rng (s : State) (k : Nat) (a : Word) : (s.setSlot k a).rng = s.rng := rfl
@[simp] theorem State.setSlot_turns (s : State) (k : Nat) (a : Word) : (s.setSlot k a).turns = s.turns := rfl
@[simp] theorem State.setSlot_draws (s : State) (k : Nat) (a : Word) : (s.setSlot k a).draws = s.draws := rfl

@[simp] theorem State.setSp_v (s : State) (n : Nat) : (s.setSp n).v = s.v := rfl
@[simp] theorem State.setSp_pc (s : State) (n : Nat) : (s.setSp n).pc = s.pc := rfl
@[simp] theorem State.setSp_i (s : State) (n : Nat) : (s.setSp n).i = s.i := rfl
@[simp] theorem State.setSp_dt (s : State) (n : Nat) : (s.setSp n).dt = s.dt := rfl
@[simp] theorem State.setSp_st (s : State) (n : Nat) : (s.setSp n).st = s.st := rfl
@[simp] theorem State.setSp_stack (s : State) (n : Nat) : (s.setSp n).stack = s.stack := rfl
@[simp] theorem State.setSp_sp (s : State) (n : Nat) : (s.setSp n).sp = n := rfl
@[simp] theorem State.setSp_fb (s : State) (n : Nat) : (s.setSp n).fb = s.fb := rfl
@[simp] theorem State.setSp_mem (s : State) (n : Nat) : (s.setSp n).mem = s.mem := rfl
@[simp] theorem State.setSp_status (s : State) (n : Nat) : (s.setSp n).status = s.status := rfl
@[simp] theorem State.setSp_snapshot (s : State) (n : Nat) : (s.setSp n).snapshot = s.snapshot := rfl
@[simp] theorem State.setSp_keyDown (s : State) (n : Nat) : (s.setSp n).keyDown = s.keyDown := rfl
@[simp] theorem State.setSp_rng (s : State) (n : Nat) : (s.setSp n).rng = s.rng := rfl
@[simp] theorem State.setSp_turns (s : State) (n : Nat) : (s.setSp n).turns = s.turns := rfl
@[simp] theorem State.setSp_draws (s : State) (n : Nat) : (s.setSp n).draws = s.draws := rfl

@[simp] theorem State.setMem_v (s : State) (m : Memory) : (s.setMem m).v = s.v := rfl
@[simp] theorem State.setMem_pc (s : State) (m : Memory) : (s.setMem m).pc = s.pc := rfl
@[simp] theorem State.setMem_i (s : State) (m : Memory) : (s.setMem m).i = s.i := rfl
@[simp] theorem State.setMem_dt (s : State) (m : Memory) : (s.setMem m).dt = s.dt := rfl
@[simp] theorem State.setMem_st (s : State) (m : Memory) : (s.setMem m).st = s.st := rfl
@[simp] theorem State.setMem_stack (s : State) (m : Memory) : (s.setMem m).stack = s.stack := rfl
@[simp] theorem State.setMem_sp (s : State) (m : Memory) : (s.setMem m).sp = s.sp := rfl
@[simp] theorem State.setMem_fb (s : State) (m : Memory) : (s.setMem m).fb = s.fb := rfl
@[simp] theorem State.setMem_mem (s : State) (m : Memory) : (s.setMem m).mem = m := rfl
@[simp] theorem State.setMem_status (s : State) (m : Memory) : (s.setMem m).status = s.status := rfl
@[simp] theorem State.setMem_snapshot (s : State) (m : Memory) : (s.setMem m).snapshot = s.snapshot := rfl
@[simp] theorem State.setMem_keyDown (s : State) (m : Memory) : (s.setMem m).keyDown = s.keyDown := rfl
@[simp] theorem State.setMem_rng (s : State) (m : Memory) : (s.setMem m).rng = s.rng := rfl
@[simp] theorem State.setMem_turns (s : State) (m : Memory) : (s.setMem m).turns = s.turns := rfl
@[simp] theorem State.setMem_draws (s : State) (m : Memory) : (s.setMem m).draws = s.draws := rfl

@[simp] theorem State.setStatus_v (s : State) (x : Status) : (s.setStatus x).v = s.v := rfl
@[simp] theorem State.setStatus_pc (s : State) (x : Status) : (s.setStatus x).pc = s.pc := rfl
@[simp] theorem State.setStatus_i (s : State) (x : Status) : (s.setStatus x).i = s.i := rfl
@[simp] theorem State.setStatus_dt (s : State) (x : Status) : (s.setStatus x).dt = s.dt := rfl
@[simp] theorem State.setStatus_st (s : State) (x : Status) : (s.setStatus x).st = s.st := rfl
@[simp] theorem State.setStatus_stack (s : State) (x : Status) : (s.setStatus x).stack = s.stack := rfl
@[simp] theorem State.setStatus_sp (s : State) (x : Status) : (s.setStatus x).sp = s.sp := rfl
@[simp] theorem State.setStatus_fb (s : State) (x : Status) : (s.setStatus x).fb = s.fb := rfl
@[simp] theorem State.setStatus_mem (s : State) (x : Status) : (s.setStatus x).mem = s.mem := rfl
@[simp] theorem State.setStatus_status (s : State) (x : Status) : (s.setStatus x).status = x := rfl
@[simp] theorem State.setStatus_snapshot (s : State) (x : Status) : (s.setStatus x).snapshot = s.snapshot := rfl
@[simp] theorem State.setStatus_keyDown (s : State) (x : Status) : (s.setStatus x).keyDown = s.keyDown := rfl
@[simp] theorem State.setStatus_rng (s : State) (x : Status) : (s.setStatus x).rng = s.rng := rfl
@[simp] theorem State.setStatus_turns (s : State) (x : Status) : (s.setStatus x).turns = s.turns := rfl
@[simp] theorem State.setStatus_draws (s : State) (x : Status) : (s.setStatus x).draws = s.draws := rfl

@[simp] theorem State.publish_v (s : State) (f : FrameBuffer) : (s.publish f).v = s.v := rfl
@[simp] theorem State.publish_pc (s : State) (f : FrameBuffer) : (s.publish f).pc = s.pc := rfl
@[simp] theorem State.publish_i (s : State) (f : FrameBuffer) : (s.publish f).i = s.i := rfl
@[simp] theorem State.publish_dt (s : State) (f : FrameBuffer) : (s.publish f).dt = s.dt := rfl
@[simp] theorem State.publish_st (s : State) (f : FrameBuffer) : (s.publish f).st = s.st := rfl
@[simp] theorem State.publish_stack (s : State) (f : FrameBuffer) : (s.publish f).stack = s.stack := rfl
@[simp] theorem State.publish_sp (s : State) (f : FrameBuffer) : (s.publish f).sp = s.sp := rfl
@[simp] theorem State.publish_fb (s : State) (f : FrameBuffer) : (s.publish f).fb = f := rfl
@[simp] theorem State.publish_mem (s : State) (f : FrameBuffer) : (s.publish f).mem = s.mem := rfl
@[simp] theorem State.publish_status (s : State) (f : FrameBuffer) : (s.publish f).status = s.status := rfl
@[simp] theorem State.publish_snapshot (s : State) (f : FrameBuffer) : (s.publish f).snapshot = f := rfl
@[simp] theorem State.publish_keyDown (s : State) (f : FrameBuffer) : (s.publish f).keyDown = s.keyDown := rfl
@[simp] theorem State.publish_rng (s : State) (f : FrameBuffer) : (s.publish f).rng = s.rng := rfl
@[simp] theorem State.publish_turns (s : State) (f : FrameBuffer) : (s.publish f).turns = s.turns := rfl
@[simp] theorem State.publish_draws (s : State) (f : FrameBuffer) : (s.publish f).draws = s.draws := rfl

@[simp] theorem State.setKeyDown_v (s : State) (k : BitVec 16) : (s.setKeyDown k).v = s.v := rfl
@[simp] theorem State.setKeyDown_pc (s : State) (k : BitVec 16) : (s.setKeyDown k).pc = s.pc := rfl
@[simp] theorem State.setKeyDown_i (s : State) (k : BitVec 16) : (s.setKeyDown k).i = s.i := rfl
@[simp] theorem State.setKeyDown_dt (s : State) (k : BitVec 16) : (s.setKeyDown k).dt = s.dt := rfl
@[simp] theorem State.setKeyDown_st (s : State) (k : BitVec 16) : (s.setKeyDown k).st = s.st := rfl
@[simp] theorem State.setKeyDown_stack (s : State) (k : BitVec 16) : (s.setKeyDown k).stack = s.stack := rfl
@[simp] theorem State.setKeyDown_sp (s : State) (k : BitVec 16) : (s.setKeyDown k).sp = s.sp := rfl
@[simp] theorem State.setKeyDown_fb (s : State) (k : BitVec 16) : (s.setKeyDown k).fb = s.fb := rfl
@[simp] theorem State.setKeyDown_mem (s : State) (k : BitVec 16) : (s.setKeyDown k).mem = s.mem := rfl
@[simp] theorem State.setKeyDown_status (s : State) (k : BitVec 16) : (s.setKeyDown k).status = s.status := rfl
@[simp] theorem State.setKeyDown_snapshot (s : State) (k : BitVec 16) : (s.setKeyDown k).snapshot = s.snapshot := rfl
@[simp] theorem State.setKeyDown_keyDown (s : State) (k : BitVec 16) : (s.setKeyDown k).keyDown = k := rfl
@[simp] theorem State.setKeyDown_rng (s : State) (k : BitVec 16) : (s.setKeyDown k).rng = s.rng := rfl
@[simp] theorem State.setKeyDown_turns (s : State) (k : BitVec 16) : (s.setKeyDown k).turns = s.turns := rfl
@[simp] theorem State.setKeyDown_draws (s : State) (k : BitVec 16) : (s.setKeyDown k).draws = s.draws := rfl

@[simp] theorem State.setRng_v (s : State) (bs : List Byte) : (s.setRng bs).v = s.v := rfl
@[simp] theorem State.setRng_pc (s : State) (bs : List Byte) : (s.setRng bs).pc = s.pc := rfl
@[simp] theorem State.setRng_i (s : State) (bs : List Byte) : (s.setRng bs).i = s.i := rfl
@[simp] theorem State.setRng_dt (s : State) (bs : List Byte) : (s.setRng bs).dt = s.dt := rfl
@[simp] theorem State.setRng_st (s : State) (bs : List Byte) : (s.setRng bs).st = s.st := rfl
@[simp] theorem State.setRng_stack (s : State) (bs : List Byte) : (s.setRng bs).stack = s.stack := rfl
@[simp] theorem State.setRng_sp (s : State) (bs : List Byte) : (s.setRng bs).sp = s.sp := rfl
@[simp] theorem State.setRng_fb (s : State) (bs : List Byte) : (s.setRng bs).fb = s.fb := rfl
@[simp] theorem State.setRng_mem (s : State) (bs : List Byte) : (s.setRng bs).mem = s.mem := rfl
@[simp] theorem State.setRng_status (s : State) (bs : List Byte) : (s.setRng bs).status = s.status := rfl
@[simp] theorem State.setRng_snapshot (s : State) (bs : List Byte) : (s.setRng bs).snapshot = s.snapshot := rfl
@[simp] theorem State.setRng_keyDown (s : State) (bs : List Byte) : (s.setRng bs).keyDown = s.keyDown := rfl
@[simp] theorem State.setRng_rng (s : State) (bs : List Byte) : (s.setRng bs).rng = bs := rfl
@[simp] theorem State.setRng_turns (s : State) (bs : List Byte) : (s.setRng bs).turns = s.turns := rfl
@[simp] theorem State.setRng_draws (s : State) (bs : List Byte) : (s.setRng bs).draws = s.draws := rfl

@[simp] theorem State.setTurns_v (s : State) (ts : List Turn) : (s.setTurns ts).v = s.v := rfl
@[simp] theorem State.setTurns_pc (s : State) (ts : List Turn) : (s.setTurns ts).pc = s.pc := rfl
@[simp] theorem State.setTurns_i (s : State) (ts : List Turn) : (s.setTurns ts).i = s.i := rfl
@[simp] theorem State.setTurns_dt (s : State) (ts : List Turn) : (s.setTurns ts).dt = s.dt := rfl
@[simp] theorem State.setTurns_st (s : State) (ts : List Turn) : (s.setTurns ts).st = s.st := rfl
@[simp] theorem State.setTurns_stack (s : State) (ts : List Turn) : (s.setTurns ts).stack = s.stack := rfl
@[simp] theorem State.setTurns_sp (s : State) (ts : List Turn) : (s.setTurns ts).sp = s.sp := rfl
@[simp] theorem State.setTurns_fb (s : State) (ts : List Turn) : (s.setTurns ts).fb = s.fb := rfl
@[simp] theorem State.setTurns_mem (s : State) (ts : List Turn) : (s.setTurns ts).mem = s.mem := rfl
@[simp] theorem State.setTurns_status (s : State) (ts : List Turn) : (s.setTurns ts).status = s.status := rfl
@[simp] theorem State.setTurns_snapshot (s : State) (ts : List Turn) : (s.setTurns ts).snapshot = s.snapshot := rfl
@[simp] theorem State.setTurns_keyDown (s : State) (ts : List Turn) : (s.setTurns ts).keyDown = s.keyDown := rfl
@[simp] theorem State.setTurns_rng (s : State) (ts : List Turn) : (s.setTurns ts).rng = s.rng := rfl
@[simp] theorem State.setTurns_turns (s : State) (ts : List Turn) : (s.setTurns ts).turns = ts := rfl
@[simp] theorem State.setTurns_draws (s : State) (ts : List Turn) : (s.setTurns ts).draws = s.draws := rfl

@[simp] theorem State.nextDraw_v (s : State) : (s.nextDraw).v = s.v := rfl
@[simp] theorem State.nextDraw_pc (s : State) : (s.nextDraw).pc = s.pc := rfl
@[simp] theorem State.nextDraw_i (s : State) : (s.nextDraw).i = s.i := rfl
@[simp] theorem State.nextDraw_dt (s : State) : (s.nextDraw).dt = s.dt := rfl
@[simp] theorem State.nextDraw_st (s : State) : (s.nextDraw).st = s.st := rfl
@[simp] theorem State.nextDraw_stack (s : State) : (s.nextDraw).stack = s.stack := rfl
@[simp] theorem State.nextDraw_sp (s : State) : (s.nextDraw).sp = s.sp := rfl
@[simp] theorem State.nextDraw_fb (s : State) : (s.nextDraw).fb = s.fb := rfl
@[simp] theorem State.nextDraw_mem (s : State) : (s.nextDraw).mem = s.mem := rfl
@[simp] theorem State.nextDraw_status (s : State) : (s.nextDraw).status = s.status := rfl
@[simp] theorem State.nextDraw_snapshot (s : State) : (s.nextDraw).snapshot = s.snapshot := rfl
@[simp] theorem State.nextDraw_keyDown (s : State) : (s.nextDraw).keyDown = s.keyDown := rfl
@[simp] theorem State.nextDraw_rng (s : State) : (s.nextDraw).rng = s.rng := rfl
@[simp] theorem State.nextDraw_turns (s : State) : (s.nextDraw).turns = s.turns := rfl
@[simp] theorem State.nextDraw_draws (s : State) : (s.nextDraw).draws = s.draws + 1 := rfl

@[simp] theorem State.slot_setReg (s : State) (r : RegIx) (b : Byte) (j : Nat) : (s.setReg r b).slot j = s.slot j := rfl
@[simp] theorem State.byteAt_setReg (s : State) (r : RegIx) (b : Byte) (c : Nat) : (s.setReg r b).byteAt c = s.byteAt c := rfl
@[simp] theorem State.reg_setPc (s : State) (a : Word) (q : RegIx) : (s.setPc a).reg q = s.reg q := rfl
@[simp] theorem State.slot_setPc (s : State) (a : Word) (j : Nat) : (s.setPc a).slot j = s.slot j := rfl
@[simp] theorem State.byteAt_setPc (s : State) (a : Word) (c : Nat) : (s.setPc a).byteAt c = s.byteAt c := rfl
@[simp] theorem State.reg_setI (s : State) (a : Word) (q : RegIx) : (s.setI a).reg q = s.reg q := rfl
@[simp] theorem State.slot_setI (s : State) (a : Word) (j : Nat) : (s.setI a).slot j = s.slot j := rfl
@[simp] theorem State.byteAt_setI (s : State) (a : Word) (c : Nat) : (s.setI a).byteAt c = s.byteAt c := rfl
@[simp] theorem State.reg_setDt (s : State) (b : Byte) (q : RegIx) : (s.setDt b).reg q = s.reg q := rfl
@[simp] theorem State.slot_setDt (s : State) (b : Byte) (j : Nat) : (s.setDt b).slot j = s.slot j := rfl
@[simp] theorem State.byteAt_setDt (s : State) (b : Byte) (c : Nat) : (s.setDt b).byteAt c = s.byteAt c := rfl
@[simp] theorem State.reg_setSt (s : State) (b : Byte) (q : RegIx) : (s.setSt b).reg q = s.reg q := rfl
@[simp] theorem State.slot_setSt (s : State) (b : Byte) (j : Nat) : (s.setSt b).slot j = s.slot j := rfl
@[simp] theorem State.byteAt_setSt (s : State) (b : Byte) (c : Nat) : (s.setSt b).byteAt c = s.byteAt c := rfl
@[simp] theorem State.reg_setSlot (s : State) (k : Nat) (a : Word) (q : RegIx) : (s.setSlot k a).reg q = s.reg q := rfl
@[simp] theorem State.byteAt_setSlot (s : State) (k : Nat) (a : Word) (c : Nat) : (s.setSlot k a).byteAt c = s.byteAt c := rfl
@[simp] theorem State.reg_setSp (s : State) (n : Nat) (q : RegIx) : (s.setSp n).reg q = s.reg q := rfl
@[simp] theorem State.slot_setSp (s : State) (n : Nat) (j : Nat) : (s.setSp n).slot j = s.slot j := rfl
@[simp] theorem State.byteAt_setSp (s : State) (n : Nat) (c : Nat) : (s.setSp n).byteAt c = s.byteAt c := rfl
@[simp] theorem State.reg_setMem (s : State) (m : Memory) (q : RegIx) : (s.setMem m).reg q = s.reg q := rfl
@[simp] theorem State.slot_setMem (s : State) (m : Memory) (j : Nat) : (s.setMem m).slot j = s.slot j := rfl
@[simp] theorem State.reg_setStatus (s : State) (x : Status) (q : RegIx) : (s.setStatus x).reg q = s.reg q := rfl
@[simp] theorem State.slot_setStatus (s : State) (x : Status) (j : Nat) : (s.setStatus x).slot j = s.slot j := rfl
@[simp] theorem State.byteAt_setStatus (s : State) (x : Status) (c : Nat) : (s.setStatus x).byteAt c = s.byteAt c := rfl
@[simp] theorem State.reg_publish (s : State) (f : FrameBuffer) (q : RegIx) : (s.publish f).reg q = s.reg q := rfl
@[simp] theorem State.slot_publish (s : State) (f : FrameBuffer) (j : Nat) : (s.publish f).slot j = s.slot j := rfl
@[simp] theorem State.byteAt_publish (s : State) (f : FrameBuffer) (c : Nat) : (s.publish f).byteAt c = s.byteAt c := rfl
@[simp] theorem State.reg_setKeyDown (s : State) (k : BitVec 16) (q : RegIx) : (s.setKeyDown k).reg q = s.reg q := rfl
@[simp] theorem State.slot_setKeyDown (s : State) (k : BitVec 16) (j : Nat) : (s.setKeyDown k).slot j = s.slot j := rfl
@[simp] theorem State.byteAt_setKeyDown (s : State) (k : BitVec 16) (c : Nat) : (s.setKeyDown k).byteAt c = s.byteAt c := rfl
@[simp] theorem State.reg_setRng (s : State) (bs : List Byte) (q : RegIx) : (s.setRng bs).reg q = s.reg q := rfl
@[simp] theorem State.slot_setRng (s : State) (bs : List Byte) (j : Nat) : (s.setRng bs).slot j = s.slot j := rfl
@[simp] theorem State.byteAt_setRng (s : State) (bs : List Byte) (c : Nat) : (s.setRng bs).byteAt c = s.byteAt c := rfl
@[simp] theorem State.reg_setTurns (s : State) (ts : List Turn) (q : RegIx) : (s.setTurns ts).reg q = s.reg q := rfl
@[simp] theorem State.slot_setTurns (s : State) (ts : List Turn) (j : Nat) : (s.setTurns ts).slot j = s.slot j := rfl
@[simp] theorem State.byteAt_setTurns (s : State) (ts : List Turn) (c : Nat) : (s.setTurns ts).byteAt c = s.byteAt c := rfl
@[simp] theorem State.reg_nextDraw (s : State) (q : RegIx) : (s.nextDraw).reg q = s.reg q := rfl
@[simp] theorem State.slot_nextDraw (s : State) (j : Nat) : (s.nextDraw).slot j = s.slot j := rfl
@[simp] theorem State.byteAt_nextDraw (s : State) (c : Nat) : (s.nextDraw).byteAt c = s.byteAt c := rfl

@[simp] theorem State.byteAt_setMem (s : State) (m : Memory) (c : Nat) : (s.setMem m).byteAt c = Memory.read m c := rfl

/-- A register read after a register write. -/
theorem State.reg_setReg (s : State) (r : RegIx) (b : Byte) (q : RegIx) :
    (s.setReg r b).reg q = if q = r then b else s.reg q := by
  simp only [State.reg, State.setReg, Vector.getElem_set]
  simp [BitVec.toNat_eq, eq_comm]

@[simp] theorem State.reg_setReg_same (s : State) (r : RegIx) (b : Byte) : (s.setReg r b).reg r = b := by
  simp [State.reg_setReg]

theorem State.reg_setReg_ne (s : State) {r q : RegIx} (b : Byte) (h : q ≠ r) :
    (s.setReg r b).reg q = s.reg q := by
  simp [State.reg_setReg, h]

/-- A slot read after a slot write inside the stack. -/
theorem State.slot_setSlot (s : State) {k : Nat} (a : Word) (j : Nat) (hk : k < Config.stackDepth) :
    (s.setSlot k a).slot j = if j = k then a else s.slot j := by
  simp only [State.slot, State.setSlot, Vector.getElem?_setIfInBounds]
  by_cases h : k = j
  · subst h; simp [hk]
  · simp [h, Ne.symm h]

/-- Register files that read the same are equal. -/
theorem State.ext_regs {s t : State} (h : ∀ r, t.reg r = s.reg r) : t.v = s.v := by
  apply Vector.ext
  intro k hk
  have := h (BitVec.ofNat 4 k)
  simpa [State.reg, Nat.mod_eq_of_lt hk] using this

end Sys2Proof.Machine
end

