-- ==== Sys2Proof/Laws/Ops.lean ====
section
/-! SUPPORT. For each shared operation, what it can do, said once; and how frames are shown. -/

namespace Sys2Proof.Machine

/-! ### Frames -/

/-- A frame holds when each part outside the list is the same. -/
theorem unchangedBut_intro {ps : List Part} {s t : State}
    (regs : Part.regs ∉ ps → ∀ r, t.reg r = s.reg r) (pc : Part.pc ∉ ps → t.pc = s.pc)
    (index : Part.index ∉ ps → t.i = s.i) (delay : Part.delay ∉ ps → t.dt = s.dt)
    (sound : Part.sound ∉ ps → t.st = s.st)
    (stack : Part.stack ∉ ps → t.sp = s.sp ∧ ∀ k, t.slot k = s.slot k)
    (screen : Part.screen ∉ ps → t.fb = s.fb ∧ t.snapshot = s.snapshot)
    (memory : Part.memory ∉ ps → ∀ a, t.byteAt a = s.byteAt a)
    (status : Part.status ∉ ps → t.status = s.status) (keys : Part.keys ∉ ps → t.keyDown = s.keyDown)
    (random : Part.random ∉ ps → t.rng = s.rng) (turns : Part.turns ∉ ps → t.turns = s.turns)
    (draws : Part.draws ∉ ps → t.draws = s.draws) : unchangedBut ps s t := by
  intro p hp
  cases p
  · exact regs hp
  · exact pc hp
  · exact index hp
  · exact delay hp
  · exact sound hp
  · exact stack hp
  · exact screen hp
  · exact memory hp
  · exact status hp
  · exact keys hp
  · exact random hp
  · exact turns hp
  · exact draws hp

theorem unchangedBut_refl (ps : List Part) (s : State) : unchangedBut ps s s := by
  intro p _
  cases p <;> simp [Part.same]

theorem Part.same_trans {p : Part} {s t u : State} (h : p.same s t) (h' : p.same t u) : p.same s u := by
  cases p <;> simp_all [Part.same]

theorem unchangedBut_trans {ps : List Part} {s t u : State} (h : unchangedBut ps s t) (h' : unchangedBut ps t u) :
    unchangedBut ps s u :=
  fun p hp => Part.same_trans (h p hp) (h' p hp)

theorem unchangedBut_mono {ps qs : List Part} {s t : State} (h : unchangedBut ps s t) (hs : ∀ p ∈ ps, p ∈ qs) :
    unchangedBut qs s t :=
  fun p hp => h p fun hq => hp (hs p hq)

theorem unchangedBut_setReg (s : State) (r : RegIx) (b : Byte) : unchangedBut [.regs] s (s.setReg r b) := by
  apply unchangedBut_intro <;> simp

theorem unchangedBut_setPc (s : State) (a : Word) : unchangedBut [.pc] s (s.setPc a) := by
  apply unchangedBut_intro <;> simp

theorem unchangedBut_setI (s : State) (a : Word) : unchangedBut [.index] s (s.setI a) := by
  apply unchangedBut_intro <;> simp

theorem unchangedBut_setDt (s : State) (b : Byte) : unchangedBut [.delay] s (s.setDt b) := by
  apply unchangedBut_intro <;> simp

theorem unchangedBut_setMem (s : State) (m : Memory) : unchangedBut [.memory] s (s.setMem m) := by
  apply unchangedBut_intro <;> simp

theorem unchangedBut_setStatus (s : State) (x : Status) : unchangedBut [.status] s (s.setStatus x) := by
  apply unchangedBut_intro <;> simp

theorem unchangedBut_raise (c : FaultCause) (s : State) : unchangedBut [.status] s (raise c s) :=
  unchangedBut_setStatus s _

theorem unchangedBut_publish (s : State) (f : FrameBuffer) : unchangedBut [.screen] s (s.publish f) := by
  apply unchangedBut_intro <;> simp

theorem unchangedBut_skip (c : Bool) (s : State) : unchangedBut [.pc] s (skip c s) := by
  cases c
  · exact unchangedBut_refl _ _
  · exact unchangedBut_setPc s _

/-! ### The fatal stop, the skip and the stack -/

@[simp] theorem raise_status (c : FaultCause) (s : State) : (raise c s).status = .fault c := rfl
@[simp] theorem raise_pc (c : FaultCause) (s : State) : (raise c s).pc = s.pc := rfl
@[simp] theorem raise_mem (c : FaultCause) (s : State) : (raise c s).mem = s.mem := rfl
@[simp] theorem raise_reg (c : FaultCause) (s : State) (r : RegIx) : (raise c s).reg r = s.reg r := rfl
@[simp] theorem raise_byteAt (c : FaultCause) (s : State) (a : Nat) : (raise c s).byteAt a = s.byteAt a := rfl
@[simp] theorem raise_slot (c : FaultCause) (s : State) (k : Nat) : (raise c s).slot k = s.slot k := rfl
@[simp] theorem raise_sp (c : FaultCause) (s : State) : (raise c s).sp = s.sp := rfl

theorem skip_pc (c : Bool) (s : State) : (skip c s).pc = if c then s.pc + 2 else s.pc := by
  cases c <;> rfl

theorem push_room (a : Word) {s : State} (h : s.sp < Config.stackDepth) :
    push a s = .ok ((s.setSlot s.sp a).setSp (s.sp + 1)) := by
  simp [push, h]

theorem push_full (a : Word) {s : State} (h : ¬ s.sp < Config.stackDepth) :
    push a s = .error ⟨.stackOverflow, a.toNat⟩ := by
  simp [push, h]

theorem pop_empty {s : State} (h : s.sp = 0) : pop s = .error ⟨.stackUnderflow, 0⟩ := by
  simp [pop, h]

theorem pop_top {s : State} {n : Nat} (h : s.sp = n + 1) : pop s = .ok (s.slot n, s.setSp n) := by
  simp [pop, h]

/-! ### The inputs -/

theorem randomByte_presented {s : State} {b : Byte} {rest : List Byte} (h : s.rng = b :: rest) :
    randomByte s = (b, s.setRng rest) := by
  simp [randomByte, h]

theorem randomByte_free {s : State} (h : s.rng = []) : randomByte s = (Config.randomByte s.draws, s.nextDraw) := by
  simp [randomByte, h]

/-- Drawing a random byte changes the waiting bytes or the draw counter, nothing else. -/
theorem unchangedBut_randomByte (s : State) : unchangedBut [.random, .draws] s (randomByte s).2 := by
  unfold randomByte
  split <;> apply unchangedBut_intro <;> simp

theorem keyDown_port {k : Byte} (h : k.toNat < Config.numKeys) (s : State) :
    keyDown k s = (s.keyDown.getLsbD k.toNat, s) := by
  simp [keyDown, h]

theorem keyDown_free {k : Byte} (h : ¬ k.toNat < Config.numKeys) (s : State) :
    keyDown k s = (Config.keyDownAbove15 s.draws, s.nextDraw) := by
  simp [keyDown, h]

/-- A key query changes at most the draw counter. -/
theorem unchangedBut_keyDown (k : Byte) (s : State) : unchangedBut [.draws] s (keyDown k s).2 := by
  unfold keyDown
  split <;> apply unchangedBut_intro <;> simp

@[simp] theorem keyDown_pc (k : Byte) (s : State) : (keyDown k s).2.pc = s.pc := by
  unfold keyDown
  split <;> rfl

/-! ### Sequences of accesses -/

theorem storeSeq_in {a : Nat} {bytes : List Byte} (s : State) (h : a + bytes.length ≤ Config.memSize) :
    storeSeq a bytes s = s.setMem (writeSeq allLand 0 a bytes s.mem).1 := by
  have hf := writeSeq_fault allLand 0 a bytes s.mem
  rw [if_pos (Or.inl h)] at hf
  unfold storeSeq
  split
  · rename_i m he; rw [he]
  · rename_i he; rw [he] at hf; exact absurd hf (by simp)

theorem storeSeq_out {a : Nat} {bytes : List Byte} (s : State) (hb : bytes ≠ [])
    (h : ¬ a + bytes.length ≤ Config.memSize) :
    storeSeq a bytes s =
      raise (accessFault (max a Config.memSize))
        (s.setMem (writeSeq (Config.partialEffect s.draws) 0 a bytes s.mem).1).nextDraw := by
  have hf := writeSeq_fault allLand 0 a bytes s.mem
  rw [if_neg (by simp [h, hb])] at hf
  unfold storeSeq
  split
  · rename_i he; rw [he] at hf; exact absurd hf (by simp)
  · rename_i c he
    rw [he] at hf
    simp only [Option.some.injEq] at hf
    rw [hf]

/-- Loading registers changes registers only. -/
theorem loadRegs_rest (lands : Nat → Bool) (k : Nat) (bs : List Byte) (s : State) :
    loadRegs lands k bs s = { s with v := (loadRegs lands k bs s).v } := by
  induction bs generalizing k s with
  | nil => rfl
  | cons b bs ih =>
    simp only [loadRegs]
    rw [ih]
    split <;> rfl

/-- What a register holds after a load of registers. -/
theorem loadRegs_reg (lands : Nat → Bool) (k : Nat) (bs : List Byte) (s : State) (h : k + bs.length ≤ 16)
    (r : RegIx) :
    (loadRegs lands k bs s).reg r =
      if k ≤ r.toNat ∧ r.toNat < k + bs.length ∧ lands r.toNat = true then bs.getD (r.toNat - k) 0 else s.reg r := by
  induction bs generalizing k s with
  | nil =>
    simp only [loadRegs, List.length_nil]
    rw [if_neg (by omega)]
  | cons b bs ih =>
    simp only [List.length_cons] at h
    simp only [loadRegs]
    rw [ih (k + 1) _ (by omega)]
    have hk : (BitVec.ofNat 4 k).toNat = k := by simp; omega
    by_cases hr : r.toNat = k
    · have hr' : r = BitVec.ofNat 4 k := by apply BitVec.eq_of_toNat_eq; rw [hk, hr]
      rw [if_neg (by omega)]
      by_cases hl : lands k = true
      · simp [hl, hr, ← hr']
      · simp [hl, hr]
    · have hr' : r ≠ BitVec.ofNat 4 k := by intro e; apply hr; rw [e, hk]
      have hs : (if lands k = true then s.setReg (BitVec.ofNat 4 k) b else s).reg r = s.reg r := by
        split
        · exact State.reg_setReg_ne s b hr'
        · rfl
      rw [hs]
      by_cases hlt : k < r.toNat
      · obtain ⟨d, hd⟩ : ∃ d, r.toNat = k + 1 + d := ⟨r.toNat - (k + 1), by omega⟩
        rw [hd, show k + 1 + d - (k + 1) = d by omega, show k + 1 + d - k = d + 1 by omega]
        simp only [List.getD_cons_succ, List.length_cons]
        congr 1
        simp only [eq_iff_iff]
        constructor
        · rintro ⟨h1, h2, h3⟩; exact ⟨by omega, by omega, h3⟩
        · rintro ⟨h1, h2, h3⟩; exact ⟨by omega, by omega, h3⟩
      · rw [if_neg (by omega), if_neg (by omega)]

theorem unchangedBut_loadRegs (lands : Nat → Bool) (k : Nat) (bs : List Byte) (s : State) :
    unchangedBut [.regs] s (loadRegs lands k bs s) := by
  rw [loadRegs_rest]
  apply unchangedBut_intro <;> intros <;> first | rfl | exact ⟨rfl, fun _ => rfl⟩ | exact ⟨rfl, rfl⟩ | simp_all

theorem loadSeq_in {a count : Nat} (s : State) (h : a + count ≤ Config.memSize) :
    loadSeq a count s = loadRegs allLand 0 ((List.range count).map fun k => s.byteAt (a + k)) s := by
  simp only [loadSeq, readSeq_in s.mem a count h, State.byteAt]

theorem loadSeq_out {a count : Nat} (s : State) (hc : 0 < count) (h : ¬ a + count ≤ Config.memSize) :
    loadSeq a count s =
      raise (accessFault (max a Config.memSize))
        (loadRegs (Config.partialEffect s.draws) 0
          ((List.range (Config.memSize - a)).map fun k => s.byteAt (a + k)) s).nextDraw := by
  simp only [loadSeq, readSeq_out s.mem a count hc h, State.byteAt]

/-! ### The fetch -/

theorem fetchWord_in {s : State} (h : s.pc.toNat + 1 < Config.memSize) :
    fetchWord s = .ok (wordOfBytes (s.byteAt s.pc.toNat) (s.byteAt (s.pc.toNat + 1)), s.pc + 2) := by
  simp [fetchWord, memRead_in s.mem (show s.pc.toNat < Config.memSize by omega), memRead_in s.mem h, State.byteAt]

theorem fetchWord_out {s : State} (h : ¬ s.pc.toNat + 1 < Config.memSize) :
    fetchWord s = .error (accessFault (max s.pc.toNat Config.memSize)) := by
  by_cases h0 : s.pc.toNat < Config.memSize
  · simp only [fetchWord, memRead_in s.mem h0, memRead_out s.mem h]
    rw [show s.pc.toNat + 1 = max s.pc.toNat Config.memSize by omega]
  · simp only [fetchWord, memRead_out s.mem h0]
    rw [show max s.pc.toNat Config.memSize = s.pc.toNat by omega]

/-- A fetch that answers came from inside memory. -/
theorem fetchWord_ok {s : State} {p : Word × Word} (h : fetchWord s = .ok p) :
    s.pc.toNat + 1 < Config.memSize ∧
      p = (wordOfBytes (s.byteAt s.pc.toNat) (s.byteAt (s.pc.toNat + 1)), s.pc + 2) := by
  by_cases hp : s.pc.toNat + 1 < Config.memSize
  · rw [fetchWord_in hp] at h
    exact ⟨hp, (Except.ok.inj h).symm⟩
  · rw [fetchWord_out hp] at h
    exact absurd h (by simp)

end Sys2Proof.Machine
end

