-- ==== Sys2Proof/Laws/Operands.lean ====
section
/-! SUPPORT. The operand forms and the flag writes, and what the byte sequences of an instruction do: every case,
said once. -/

namespace Sys2Proof.Machine

/-! ### Operands and flags -/

@[simp] theorem addrOperand_toNat (nnn : BitVec 12) : (addrOperand nnn).toNat = nnn.toNat := by
  simp [addrOperand]; have := nnn.isLt; omega

@[simp] theorem blockRegs_length (x : RegIx) (s : State) : (blockRegs x s).length = x.toNat + 1 := by
  simp [blockRegs, blockLength]

/-- The block holds each register up to Vx at its own place. -/
theorem blockRegs_getD (x : RegIx) (s : State) (r : RegIx) (h : r.toNat ≤ x.toNat) :
    (blockRegs x s).getD r.toNat 0 = s.reg r := by
  simp [blockRegs, blockLength, List.getD, List.getElem?_map, List.getElem?_range (show r.toNat < x.toNat + 1 by omega)]

theorem range_map_getD (f : Nat → Byte) (n k : Nat) (h : k < n) : ((List.range n).map f).getD k 0 = f k := by
  simp [List.getD, List.getElem?_map, List.getElem?_range h]

theorem sub_toNat (a b : Byte) : (a - b).toNat = (a.toNat + 256 - b.toNat) % 256 := by
  rw [BitVec.toNat_sub]; have := b.isLt; congr 1; omega

theorem sameRegsBut_setReg (s : State) (x : RegIx) (b : Byte) : sameRegsBut [x] s (s.setReg x b) := by
  intro r hr; simp at hr; simp [State.reg_setReg, hr]

theorem setFlagThenReg_same (x : RegIx) (r f : Byte) (s : State) : (setFlagThenReg x r f s).reg x = r := by
  simp [setFlagThenReg]

theorem setFlagThenReg_flag {x : RegIx} (r f : Byte) (s : State) (h : x ≠ 0xF) :
    (setFlagThenReg x r f s).reg 0xF = f := by
  rw [setFlagThenReg, State.reg_setReg_ne _ _ (Ne.symm h), State.reg_setReg, if_pos rfl]

theorem sameRegsBut_setFlagThenReg (x : RegIx) (r f : Byte) (s : State) :
    sameRegsBut [x, 0xF] s (setFlagThenReg x r f s) := by
  intro q hr; simp at hr; simp [setFlagThenReg, State.reg_setReg, hr]

theorem unchangedBut_setFlagThenReg (x : RegIx) (r f : Byte) (s : State) :
    unchangedBut [.regs] s (setFlagThenReg x r f s) :=
  unchangedBut_trans (unchangedBut_setReg _ _ _) (unchangedBut_setReg _ _ _)

/-! ### Byte sequences, every case -/

/-- The byte writes of an instruction: all of them, or the fault of the first address outside memory and the writes
before it as the free value says. -/
theorem storeSeq_cases (a : Nat) (bs : List Byte) (s : State) :
    storeSeq a bs s = s.setMem (writeSeq allLand 0 a bs s.mem).1 ∨
    (4096 < a + bs.length ∧ bs ≠ [] ∧ storeSeq a bs s = raise (accessFault (max a 4096))
      (s.setMem (writeSeq (Config.partialEffect s.draws) 0 a bs s.mem).1).nextDraw) := by
  by_cases h : a + bs.length ≤ 4096
  · exact Or.inl (storeSeq_in s h)
  · by_cases hb : bs = []
    · subst hb; left; rfl
    · exact Or.inr ⟨by omega, hb, storeSeq_out s hb h⟩

/-- The byte reads of an instruction into registers: all of them, or the fault of the first address outside memory and
the registers before it as the free value says. -/
theorem loadSeq_cases (a n : Nat) (s : State) :
    (∃ bs, loadSeq a n s = loadRegs allLand 0 bs s ∧ bs.length = n) ∨
    (∃ bs, 4096 < a + n ∧ loadSeq a n s = raise (accessFault (max a 4096))
      (loadRegs (Config.partialEffect s.draws) 0 bs s).nextDraw ∧ bs.length ≤ n) := by
  by_cases h : a + n ≤ 4096
  · exact Or.inl ⟨_, loadSeq_in s h, by simp⟩
  · by_cases hb : n = 0
    · subst hb; left; exact ⟨[], rfl, rfl⟩
    · refine Or.inr ⟨_, by omega, loadSeq_out s (by omega) h, ?_⟩
      simp only [List.length_map, List.length_range, Config.memSize]; omega

theorem unchangedBut_storeSeq (a : Nat) (bs : List Byte) (s : State) :
    unchangedBut [.memory, .status, .draws] s (storeSeq a bs s) := by
  rcases storeSeq_cases a bs s with h | ⟨_, _, h⟩ <;> rw [h] <;> apply unchangedBut_intro <;> simp [raise]

theorem unchangedBut_loadSeq (a n : Nat) (s : State) :
    unchangedBut [.regs, .status, .draws] s (loadSeq a n s) := by
  rcases loadSeq_cases a n s with ⟨l, h, _⟩ | ⟨l, _, h, _⟩ <;> rw [h]
  · exact unchangedBut_mono (unchangedBut_loadRegs _ _ _ _) (by simp)
  · have h1 := unchangedBut_loadRegs (Config.partialEffect s.draws) 0 l s
    generalize loadRegs _ _ _ _ = u at *
    refine unchangedBut_trans (unchangedBut_mono h1 (by simp)) ?_
    apply unchangedBut_intro <;> simp [raise]

theorem sameBytesOutside_storeSeq (a : Nat) (bs : List Byte) {s : State} (hw : Memory.wf s.mem = true) :
    sameBytesOutside a bs.length s (storeSeq a bs s) := by
  intro c hc
  rcases storeSeq_cases a bs s with h | ⟨_, _, h⟩ <;> rw [h]
  · rw [State.byteAt_setMem, writeSeq_read _ _ _ _ hw, if_neg (by rintro ⟨h1, h2, _⟩; exact hc ⟨h1, h2⟩)]; rfl
  · simp only [raise_byteAt, State.byteAt_nextDraw, State.byteAt_setMem]
    rw [writeSeq_read _ _ _ _ hw, if_neg (by rintro ⟨h1, h2, _⟩; exact hc ⟨h1, h2⟩)]; rfl

theorem storeSeq_wf (a : Nat) (bs : List Byte) {s : State} (hw : Memory.wf s.mem = true) :
    Memory.wf (storeSeq a bs s).mem = true := by
  rcases storeSeq_cases a bs s with h | ⟨_, _, h⟩ <;> rw [h]
  · exact writeSeq_wf _ _ _ _ hw
  · exact writeSeq_wf _ _ _ _ hw

@[simp] theorem loadSeq_mem (a n : Nat) (s : State) : (loadSeq a n s).mem = s.mem := by
  rcases loadSeq_cases a n s with ⟨l, h, _⟩ | ⟨l, _, h, _⟩ <;> rw [h]
  · rw [loadRegs_rest]
  · rw [loadRegs_rest]; rfl

/-- A sprite's bytes when none is outside memory, and when there is none to read. -/
theorem readSeq_block (s : State) (n : Nat) (h : n = 0 ∨ s.i.toNat + n ≤ 4096) :
    readSeq s.mem (indexBase s) n = ((List.range n).map fun k => s.byteAt (s.i.toNat + k), none) := by
  rcases h with rfl | h
  · rfl
  · exact readSeq_in _ _ _ h

end Sys2Proof.Machine
end

