-- ==== Sys2Proof/Laws/PerInstr.lean ====
section
/-! SUPPORT. One statement about every instruction as syntax: its assembled word meets its own row of the opcode table
(30_encoding.md R84, R86; the values of the rows are log 1). -/

namespace Sys2Proof.Laws.EncodingRow

/-- The assembled word, under the row's mask, is the row's match value. -/
def Statement (i : Instr) : Prop := encode i &&& (tableRow i).2 = (tableRow i).1

theorem cls : Statement .cls :=
  rfl

theorem ret : Statement .ret :=
  rfl

theorem jp (nnn : BitVec 12) : Statement (.jp nnn) :=
  (and_F000_iff _ _).2 (opField_wordA _ _)

theorem call (nnn : BitVec 12) : Statement (.call nnn) :=
  (and_F000_iff _ _).2 (opField_wordA _ _)

theorem seImm (x : RegIx) (kk : Byte) : Statement (.seImm x kk) :=
  (and_F000_iff _ _).2 (opField_wordXK _ _ _)

theorem sneImm (x : RegIx) (kk : Byte) : Statement (.sneImm x kk) :=
  (and_F000_iff _ _).2 (opField_wordXK _ _ _)

theorem seReg (x y : RegIx) : Statement (.seReg x y) :=
  (and_F000_iff _ _).2 (opField_wordXYN _ _ _ _)

theorem ldImm (x : RegIx) (kk : Byte) : Statement (.ldImm x kk) :=
  (and_F000_iff _ _).2 (opField_wordXK _ _ _)

theorem addImm (x : RegIx) (kk : Byte) : Statement (.addImm x kk) :=
  (and_F000_iff _ _).2 (opField_wordXK _ _ _)

theorem ldReg (x y : RegIx) : Statement (.ldReg x y) :=
  (and_F00F_iff _ _ _).2 ⟨opField_wordXYN _ _ _ _, nField_wordXYN _ _ _ _⟩

theorem or (x y : RegIx) : Statement (.or x y) :=
  (and_F00F_iff _ _ _).2 ⟨opField_wordXYN _ _ _ _, nField_wordXYN _ _ _ _⟩

theorem and (x y : RegIx) : Statement (.and x y) :=
  (and_F00F_iff _ _ _).2 ⟨opField_wordXYN _ _ _ _, nField_wordXYN _ _ _ _⟩

theorem xor (x y : RegIx) : Statement (.xor x y) :=
  (and_F00F_iff _ _ _).2 ⟨opField_wordXYN _ _ _ _, nField_wordXYN _ _ _ _⟩

theorem addReg (x y : RegIx) : Statement (.addReg x y) :=
  (and_F00F_iff _ _ _).2 ⟨opField_wordXYN _ _ _ _, nField_wordXYN _ _ _ _⟩

theorem sub (x y : RegIx) : Statement (.sub x y) :=
  (and_F00F_iff _ _ _).2 ⟨opField_wordXYN _ _ _ _, nField_wordXYN _ _ _ _⟩

theorem shr (x y : RegIx) : Statement (.shr x y) :=
  (and_F00F_iff _ _ _).2 ⟨opField_wordXYN _ _ _ _, nField_wordXYN _ _ _ _⟩

theorem subn (x y : RegIx) : Statement (.subn x y) :=
  (and_F00F_iff _ _ _).2 ⟨opField_wordXYN _ _ _ _, nField_wordXYN _ _ _ _⟩

theorem shl (x y : RegIx) : Statement (.shl x y) :=
  (and_F00F_iff _ _ _).2 ⟨opField_wordXYN _ _ _ _, nField_wordXYN _ _ _ _⟩

theorem sneReg (x y : RegIx) : Statement (.sneReg x y) :=
  (and_F000_iff _ _).2 (opField_wordXYN _ _ _ _)

theorem ldI (nnn : BitVec 12) : Statement (.ldI nnn) :=
  (and_F000_iff _ _).2 (opField_wordA _ _)

theorem jpV0 (nnn : BitVec 12) : Statement (.jpV0 nnn) :=
  (and_F000_iff _ _).2 (opField_wordA _ _)

theorem rnd (x : RegIx) (kk : Byte) : Statement (.rnd x kk) :=
  (and_F000_iff _ _).2 (opField_wordXK _ _ _)

theorem drw (x y : RegIx) (n : Nibble) : Statement (.drw x y n) :=
  (and_F000_iff _ _).2 (opField_wordXYN _ _ _ _)

theorem skp (x : RegIx) : Statement (.skp x) :=
  (and_F0FF_iff _ _ _).2 ⟨opField_wordXK _ _ _, kkField_wordXK _ _ _⟩

theorem sknp (x : RegIx) : Statement (.sknp x) :=
  (and_F0FF_iff _ _ _).2 ⟨opField_wordXK _ _ _, kkField_wordXK _ _ _⟩

theorem ldVxDt (x : RegIx) : Statement (.ldVxDt x) :=
  (and_F0FF_iff _ _ _).2 ⟨opField_wordXK _ _ _, kkField_wordXK _ _ _⟩

theorem ldDtVx (x : RegIx) : Statement (.ldDtVx x) :=
  (and_F0FF_iff _ _ _).2 ⟨opField_wordXK _ _ _, kkField_wordXK _ _ _⟩

theorem ldVxK (x : RegIx) : Statement (.ldVxK x) :=
  (and_F0FF_iff _ _ _).2 ⟨opField_wordXK _ _ _, kkField_wordXK _ _ _⟩

theorem addI (x : RegIx) : Statement (.addI x) :=
  (and_F0FF_iff _ _ _).2 ⟨opField_wordXK _ _ _, kkField_wordXK _ _ _⟩

theorem ldF (x : RegIx) : Statement (.ldF x) :=
  (and_F0FF_iff _ _ _).2 ⟨opField_wordXK _ _ _, kkField_wordXK _ _ _⟩

theorem ldB (x : RegIx) : Statement (.ldB x) :=
  (and_F0FF_iff _ _ _).2 ⟨opField_wordXK _ _ _, kkField_wordXK _ _ _⟩

theorem ldMemVx (x : RegIx) : Statement (.ldMemVx x) :=
  (and_F0FF_iff _ _ _).2 ⟨opField_wordXK _ _ _, kkField_wordXK _ _ _⟩

theorem ldVxMem (x : RegIx) : Statement (.ldVxMem x) :=
  (and_F0FF_iff _ _ _).2 ⟨opField_wordXK _ _ _, kkField_wordXK _ _ _⟩

end Sys2Proof.Laws.EncodingRow
end

