-- ==== Sys2Proof/Laws/Step.lean ====
section
/-! SUPPORT. The step taken apart: which agent moves, the engine's move, runs of a list of moves. -/

namespace Sys2Proof.Machine

/-- One down-count, as the rule writes it. -/
theorem countDown_eq (b : Byte) : countDown b = if b ≠ 0 then b - 1 else b := by
  unfold countDown; split <;> simp_all

theorem countDown_toNat (b : Byte) : (countDown b).toNat = b.toNat - 1 := by
  unfold countDown; split
  · simp_all
  · rename_i h
    have : b.toNat ≠ 0 := fun e => h (by apply BitVec.eq_of_toNat_eq; simpa using e)
    rw [BitVec.toNat_sub]; have := b.isLt; simp; omega

/-- When the engine is to move in RUN, the step is its `ExecStep`. -/
theorem step_engine {s : State} {ts : List Turn} (hr : s.status = .run)
    (ht : s.turns = [] ∧ ts = [] ∨ s.turns = .engine :: ts) : step s = execStep (s.setTurns ts) := by
  simp only [step, nextStep, hr]
  rcases ht with ⟨h, rfl⟩ | h
  · rw [h]; simp only [takeTurn, engineMove, hr]; congr 1; cases s; simp_all [State.setTurns]
  · rw [h]; simp [takeTurn, engineMove, hr]

/-- Outside FAULT the step is the first move listed. -/
theorem step_turn {s : State} {t : Turn} {ts : List Turn} (hs : s.safe) (ht : s.turns = t :: ts) :
    step s = takeTurn t (s.setTurns ts) := by
  unfold step nextStep
  split
  · rename_i c hc; exact absurd hc (hs c)
  all_goals simp [ht]

/-- `ExecStep` inside memory: decode and execute the word at PC, PC advanced. -/
theorem execStep_in {s : State} (h : s.pc.toNat + 1 < Config.memSize) :
    execStep s =
      executeWord (wordOfBytes (s.byteAt s.pc.toNat) (s.byteAt (s.pc.toNat + 1))) (s.setPc (s.pc + 2)) := by
  rw [execStep, fetchWord_in h]

/-- `ExecStep` outside memory: the fault of the first address outside, and PC stays. -/
theorem execStep_out {s : State} (h : ¬ s.pc.toNat + 1 < Config.memSize) :
    execStep s = .next (raise (accessFault (max s.pc.toNat Config.memSize)) s) := by
  rw [execStep, fetchWord_out h]

/-- A run of a list of moves, its first move taken. -/
theorem runTurns_cons {t : Turn} {ts : List Turn} {s u : State} (hs : s.safe)
    (h : takeTurn t (s.setTurns ts) = .next u) (hu : u.turns = ts) : runTurns (t :: ts) s = runTurns ts u := by
  simp only [runTurns, List.length_cons, Host.Core.run]
  have : Sys2Proof.core.step (s.setTurns (t :: ts)) = .next u := by
    show step _ = _
    rw [step_turn (t := t) (ts := ts) (by simpa [State.safe] using hs) rfl]
    exact h
  rw [this]
  subst hu; rfl

/-- `Execute` of one list after another. -/
theorem execAll_append (a b : List Instr) {s t : State} (h : execAll a s = .next t) :
    execAll (a ++ b) s = execAll b t := by
  induction a generalizing s with
  | nil => simp [execAll] at h; subst h; rfl
  | cons i is ih =>
    simp only [execAll, List.cons_append] at h ⊢
    split at h <;> rename_i he
    · exact ih h
    · cases h
    · cases h

/-- The low bits of the snapshot port, one by one. -/
theorem snapshotBits_getLsbD (s : State) : ∀ n k, k < n → (snapshotBits s n).getLsbD k = snapshotBit s k := by
  intro n
  induction n with
  | zero => intro k h; omega
  | succ n ih =>
    intro k h
    simp only [snapshotBits, BitVec.getLsbD_cons]
    split
    · rename_i e; rw [e]
    · exact ih k (by omega)

end Sys2Proof.Machine
end

