-- ==== Sys2Proof/Tests/Slice0.lean ====
section
/-! SUPPORT. The model's own tests. Expected results are those of 95_test_vectors.md or of the examples in the rules
cited; words are written out from the patterns of 30_encoding.md R84. The second part holds, for each statement with
hypotheses, a state and operands that meet them. -/

namespace Sys2Proof.Tests

open Sys2Proof Sys2Proof.Machine

/-- A view of the state an outcome answers, if it answers one. -/
def seen {α : Type} (f : State → α) : Host.Outcome State Fault Refusal → Option α
  | .next t => some (f t)
  | .fault _ => none
  | .refused _ => none

/-- The instruction a word decodes to, if any. -/
def decoded (w : Word) : Option Instr :=
  match decode w with
  | .ok i => some i
  | .error _ => none

/-- The reset state with two registers set. -/
def regs2 (a : RegIx) (x : Byte) (b : RegIx) (y : Byte) : State := (State.reset.setReg a x).setReg b y

/-- One step on a word at the state's PC. -/
def run (w : Nat) (s : State) : Host.Outcome State Fault Refusal := step (s.withFetchWord 16 w)

/-- Vx and VF after one step on a word. -/
def vx (w : Nat) (x : RegIx) (s : State) : Option (Byte × Byte) := seen (fun t => (t.reg x, t.reg 0xF)) (run w s)

/-- PC after one step on a word. -/
def pcAfter (w : Nat) (s : State) : Option Word := seen State.pc (run w s)

/-- STATUS and PC after one step on a word. -/
def stop (w : Nat) (s : State) : Option (Status × Word) := seen (fun t => (t.status, t.pc)) (run w s)

/-- A state with bytes at an address, from the reset state. -/
def bytesAt (a : Nat) (bs : List Byte) (s : State) : State := s.setMem (writeSeq allLand 0 a bs s.mem).1

/-! ### WellFormed -/

theorem test_field_x_refused : Field.admits .x 16 = false := by decide
theorem test_field_y_refused : Field.admits .y 16 = false := by decide
theorem test_field_n_refused : Field.admits .n 16 = false := by decide
theorem test_field_kk_refused : Field.admits .kk 256 = false := by decide
theorem test_field_nnn_refused : Field.admits .nnn 4096 = false := by decide
theorem test_operands_refused : operandsWellFormed [(.x, 3), (.kk, 0x100)] = false := by decide
theorem test_operands_admitted : operandsWellFormed [(.x, 15), (.kk, 0xFF)] = true := by decide
theorem test_image_refused : imageFits (List.replicate 3585 0) = false := by
  rw [imageFits, List.length_replicate]; decide
theorem test_image_admitted : imageFits (List.replicate 3584 0) = true := by
  rw [imageFits, List.length_replicate]; decide

/-! ### Decode: the patterns of 30_encoding.md R84 -/

theorem test_decode_control_flow :
    decoded 0b0000000011101110#16 = some .ret ∧
    decoded 0b0001001000110100#16 = some (.jp 0x234) ∧
    decoded 0b0010001101000101#16 = some (.call 0x345) ∧
    decoded 0b0011000001000010#16 = some (.seImm 0x0 0x42) ∧
    decoded 0b0100000001000010#16 = some (.sneImm 0x0 0x42) ∧
    decoded 0b0101000100100000#16 = some (.seReg 0x1 0x2) ∧
    decoded 0b1001000100100000#16 = some (.sneReg 0x1 0x2) ∧
    decoded 0b1011001100000000#16 = some (.jpV0 0x300) := by decide

theorem test_decode_alu :
    decoded 0b0110101001000010#16 = some (.ldImm 0xA 0x42) ∧
    decoded 0b0111000011111111#16 = some (.addImm 0x0 0xFF) ∧
    decoded 0b1000000000010000#16 = some (.ldReg 0x0 0x1) ∧
    decoded 0b1000000000010001#16 = some (.or 0x0 0x1) ∧
    decoded 0b1000000000010010#16 = some (.and 0x0 0x1) ∧
    decoded 0b1000000000010011#16 = some (.xor 0x0 0x1) ∧
    decoded 0b1000000000010100#16 = some (.addReg 0x0 0x1) ∧
    decoded 0b1000000000010101#16 = some (.sub 0x0 0x1) ∧
    decoded 0b1000000000010110#16 = some (.shr 0x0 0x1) ∧
    decoded 0b1000000000010111#16 = some (.subn 0x0 0x1) ∧
    decoded 0b1000000000011110#16 = some (.shl 0x0 0x1) ∧
    decoded 0b1100001100001111#16 = some (.rnd 0x3 0x0F) := by decide

theorem test_decode_index_and_memory :
    decoded 0b1010010000000000#16 = some (.ldI 0x400) ∧
    decoded 0b1111001000011110#16 = some (.addI 0x2) ∧
    decoded 0b1111010100101001#16 = some (.ldF 0x5) ∧
    decoded 0b1111000000110011#16 = some (.ldB 0x0) ∧
    decoded 0b1111001101010101#16 = some (.ldMemVx 0x3) ∧
    decoded 0b1111001001100101#16 = some (.ldVxMem 0x2) := by decide

theorem test_decode_display_keys_timers :
    decoded 0b0000000011100000#16 = some .cls ∧
    decoded 0b1101000000010010#16 = some (.drw 0x0 0x1 0x2) ∧
    decoded 0b1110000110011110#16 = some (.skp 0x1) ∧
    decoded 0b1110000110100001#16 = some (.sknp 0x1) ∧
    decoded 0b1111001100000111#16 = some (.ldVxDt 0x3) ∧
    decoded 0b1111000000010101#16 = some (.ldDtVx 0x0) ∧
    decoded 0b1111010000001010#16 = some (.ldVxK 0x4) := by decide

/-- The unknown words of 95_test_vectors.md. -/
theorem test_decode_unknown :
    decoded 0x0000 = none ∧ decoded 0x01E0 = none ∧ decoded 0x0123 = none ∧ decoded 0x8008 = none ∧
    decoded 0x800F = none ∧ decoded 0xE09F = none ∧ decoded 0xF018 = none ∧ decoded 0xFFFF = none := by decide

/-- 0x512F decodes as 0x5120 does (R88). -/
theorem test_decode_ignores_n : decoded 0x512F = some (.seReg 0x1 0x2) := by decide

theorem test_decode_table_word : decodeTableWord 16 0x6A2F = some (.ldImm 0xA 0x2F) := by decide

/-- The image of program P1, first two words. -/
theorem test_encode_bytes : encodeBytes (.ldImm 0 0x05) ++ encodeBytes (.jp 0x204) = [0x60, 0x05, 0x12, 0x04] := by
  decide

theorem test_asm :
    asm (.drw 0x0 0x1 0x5) = "DRW V0, V1, 0x5" ∧ asm (.ldMemVx 0x1) = "LD [I], V1" ∧
    asm (.jp 0x20C) = "JP 0x20C" := by decide

/-! ### One step: decode and execution loop -/

theorem test_unknown_word : stop 0x01E0 State.reset = some (.fault ⟨.unknownInstruction, 0x01E0⟩, 0x0202) := by decide

theorem test_fetch_at_0FFF :
    seen (fun t => (t.status, t.pc)) (step (State.reset.setPc 0x0FFF)) =
      some (.fault ⟨.outOfBoundsMemoryAccess, 0x1000⟩, 0x0FFF) := by decide

theorem test_fetch_at_0FFE : pcAfter 0xA000 (State.reset.setPc 0x0FFE) = some 0x1000 := by decide

theorem test_fault_codes :
    [FaultKind.outOfBoundsMemoryAccess, .stackOverflow, .stackUnderflow, .unknownInstruction, .loadTooLarge].map
      FaultKind.code = [1, 2, 3, 4, 5] := by decide

/-! ### Control flow -/

theorem test_jp : pcAfter 0x1FFF State.reset = some 0x0FFF := by decide

theorem test_call :
    seen (fun t => (t.pc, t.sp, t.slot 0)) (run 0x2345 State.reset) = some (0x0345, 1, 0x0202) := by decide

theorem test_call_overflow :
    stop 0x2345 (State.reset.setSp 16) = some (.fault ⟨.stackOverflow, 0x0202⟩, 0x0202) := by decide

theorem test_ret :
    seen (fun t => (t.pc, t.sp)) (run 0x00EE ((State.reset.setSlot 0 0x0206).setSp 1)) = some (0x0206, 0) := by decide

theorem test_ret_underflow : stop 0x00EE State.reset = some (.fault ⟨.stackUnderflow, 0⟩, 0x0202) := by decide

theorem test_se_byte :
    pcAfter 0x3042 (State.reset.setReg 0 0x42) = some 0x0204 ∧
    pcAfter 0x3042 (State.reset.setReg 0 0x41) = some 0x0202 := by decide

theorem test_sne_byte :
    pcAfter 0x4042 (State.reset.setReg 0 0x41) = some 0x0204 ∧
    pcAfter 0x4042 (State.reset.setReg 0 0x42) = some 0x0202 := by decide

theorem test_se_reg :
    pcAfter 0x512F (regs2 1 7 2 7) = some 0x0204 ∧ pcAfter 0x5120 (regs2 1 7 2 8) = some 0x0202 := by decide

theorem test_sne_reg :
    pcAfter 0x9120 (regs2 1 7 2 8) = some 0x0204 ∧ pcAfter 0x9120 (regs2 1 7 2 7) = some 0x0202 := by decide

theorem test_jp_v0 : pcAfter 0xBFFF (State.reset.setReg 0 0xFF) = some 0x10FE := by decide

/-! ### Registers and arithmetic -/

theorem test_ld_byte : vx 0x6A42 0xA State.reset = some (0x42, 0) := by decide
theorem test_add_byte_no_flag : vx 0x70FF 0 (State.reset.setReg 0 0x01) = some (0x00, 0x00) := by decide
theorem test_add_byte_to_vf : vx 0x7F01 0xF (State.reset.setReg 0xF 0xFF) = some (0x00, 0x00) := by decide
theorem test_ld_reg : vx 0x8010 0 (State.reset.setReg 1 0x42) = some (0x42, 0) := by decide
theorem test_or : vx 0x8011 0 ((regs2 0 0xF0 1 0x0F).setReg 0xF 0x55) = some (0xFF, 0x55) := by decide
theorem test_and : vx 0x8012 0 ((regs2 0 0xF0 1 0x3C).setReg 0xF 0x55) = some (0x30, 0x55) := by decide
theorem test_xor : vx 0x8013 0 (regs2 0 0xF0 1 0x3C) = some (0xCC, 0) := by decide
theorem test_add_carry : vx 0x8014 0 (regs2 0 0xFF 1 0x01) = some (0x00, 0x01) := by decide
theorem test_add_flag_is_an_operand : vx 0x81F4 1 (regs2 1 0xFF 0xF 0x01) = some (0x00, 0x01) := by decide
theorem test_sub_borrow : vx 0x8015 0 (regs2 0 0x03 1 0x05) = some (0xFE, 0x00) := by decide
theorem test_sub_into_vf : vx 0x8F15 0xF (regs2 0xF 0x05 1 0x03) = some (0x02, 0x02) := by decide
theorem test_shr_ignores_vy : vx 0x8016 0 (regs2 0 0x80 1 0xFF) = some (0x40, 0x00) := by decide
theorem test_shr_into_vf : vx 0x8F06 0xF (State.reset.setReg 0xF 0x03) = some (0x01, 0x01) := by decide
theorem test_subn : vx 0x8017 0 (regs2 0 0x03 1 0x05) = some (0x02, 0x01) := by decide
theorem test_subn_equal : vx 0x8017 0 (regs2 0 0x04 1 0x04) = some (0x00, 0x01) := by decide
theorem test_shl : vx 0x800E 0 (State.reset.setReg 0 0x81) = some (0x02, 0x01) := by decide
theorem test_shl_into_vf : vx 0x8FFE 0xF (State.reset.setReg 0xF 0x81) = some (0x02, 0x02) := by decide
theorem test_rnd : vx 0xC00F 0 (State.reset.setRng [0xAB]) = some (0x0B, 0) := by decide

/-! ### Index register and memory -/

theorem test_ld_i : seen State.i (run 0xA123 State.reset) = some 0x0123 := by decide

theorem test_add_i :
    seen State.i (run 0xF01E ((State.reset.setReg 0 0x10).setI 0xFFF8)) = some 0x0008 ∧
    seen State.i (run 0xF01E ((State.reset.setReg 0 0x10).setI 0x0FF8)) = some 0x1008 := by decide

theorem test_ld_f : seen State.i (run 0xF029 (State.reset.setReg 0 0x1A)) = some 0x0032 := by decide

theorem test_ld_b :
    seen (fun t => ([0x300, 0x301, 0x302].map t.byteAt, t.i)) (run 0xF033 ((State.reset.setReg 0 0xFF).setI 0x300)) =
      some ([2, 5, 5], 0x300) := by decide

theorem test_ld_b_fault :
    stop 0xF033 ((State.reset.setReg 0 0x7B).setI 0xFFE) =
      some (.fault ⟨.outOfBoundsMemoryAccess, 0x1000⟩, 0x0202) := by decide

theorem test_block_store :
    seen (fun t => [0x300, 0x301, 0x302].map t.byteAt) (run 0xF155 ((regs2 0 0x01 1 0x02).setI 0x300)) =
      some [1, 2, 0] := by decide

theorem test_block_load :
    seen (fun t => [t.reg 0, t.reg 1, t.reg 2, t.reg 3]) (run 0xF265 (bytesAt 0x300 [9, 8, 7, 6] (State.reset.setI 0x300))) =
      some [9, 8, 7, 0] := by decide

theorem test_block_load_fault :
    stop 0xF065 (State.reset.setI 0x1000) = some (.fault ⟨.outOfBoundsMemoryAccess, 0x1000⟩, 0x0202) := by decide

/-! ### Display -/

theorem test_cls :
    seen (fun t => (pixel t.fb 5 5, t.reg 0xF)) (run 0x00E0 ((State.reset.publish (togglePixel blankScreen 5 5)).setReg 0xF 7)) =
      some (false, 7) := by decide

/-- Glyph row 0xF0 at column 0, row 33 mod 32. -/
theorem test_drw :
    seen (fun t => ([0, 3, 4].map fun c => pixel t.fb c 1, t.reg 0xF)) (run 0xD011 (State.reset.setReg 1 33)) =
      some ([true, true, false], 0) := by decide

/-- A set pixel is cleared at the right edge, and nothing appears at column 0. -/
theorem test_drw_collision_and_clip :
    seen (fun t => (pixel t.fb 60 0, pixel t.fb 63 0, pixel t.fb 0 0, t.reg 0xF))
      (run 0xD011 ((State.reset.publish (togglePixel blankScreen 60 0)).setReg 0 60)) =
      some (false, true, false, 1) := by decide

/-! ### Keys and timers -/

theorem test_skp :
    pcAfter 0xE09E ((State.reset.setReg 0 5).setKeyDown 0x0020) = some 0x0204 ∧
    pcAfter 0xE09E (State.reset.setReg 0 5) = some 0x0202 := by decide

theorem test_sknp :
    pcAfter 0xE0A1 ((State.reset.setReg 0 5).setKeyDown 0x0020) = some 0x0202 ∧
    pcAfter 0xE0A1 (State.reset.setReg 0 5) = some 0x0204 := by decide

theorem test_ld_vx_dt : vx 0xF007 0 (State.reset.setDt 0x3C) = some (0x3C, 0) := by decide
theorem test_ld_dt_vx : seen State.dt (run 0xF015 (State.reset.setReg 0 0x09)) = some 0x09 := by decide
theorem test_ld_vx_k : stop 0xF20A State.reset = some (.waitKey 2, 0x0202) := by decide

theorem test_key_press :
    seen (fun t => (t.reg 2, t.status, t.pc)) (step ((State.reset.setStatus (.waitKey 2)).setTurns [.keyPress 0xC])) =
      some (0x0C, .run, 0x0200) := by decide

theorem test_tick :
    seen (fun t => (t.dt, t.st)) (step ((State.reset.setDt 1).setTurns [.tick])) = some (0, 0) := by decide

/-! ## Witnesses: hypotheses that hold together

A name `witness_<Statement>` says which statement's hypotheses it meets; boundary values of each clause are tried. -/

theorem witness_EncodeInvertsDecode :
    decode 0x512F = .ok (.seReg 1 2) ∧ decode 0x912F = .ok (.sneReg 1 2) ∧ decode 0xFF65 = .ok (.ldVxMem 0xF) ∧
    decode 0x1FFF = .ok (.jp 0xFFF) := ⟨rfl, rfl, rfl, rfl⟩

theorem witness_UnknownWords :
    opField 0x0123 = 0 ∧ nField 0x800F = 0xF ∧ kkField 0xE09F = 0x9F ∧ kkField 0xF018 = 0x18 := by decide

theorem witness_OpcodeTableRows :
    decode 0x00E0 = .ok .cls ∧ 0x8FFE#16 &&& (tableRow (.shl 0 0)).2 = (tableRow (.shl 0 0)).1 ∧
    decode 0x8FFE = .ok (.shl 0xF 0xF) := ⟨rfl, rfl, rfl⟩

theorem witness_ExecStep_not_running : (State.reset.setStatus (.waitKey 0)).status ≠ .run := by decide

theorem witness_ExecStep_fetch_fault :
    (State.reset.setPc 0x0FFF).status = .run ∧
    fetchWord (State.reset.setPc 0x0FFF) = .error ⟨.outOfBoundsMemoryAccess, 0x1000⟩ := ⟨rfl, rfl⟩

theorem witness_ExecStep_decodes :
    (State.reset.setPc 0x005).status = .run ∧ fetchWord (State.reset.setPc 0x005) = .ok (0x2060, 0x007) ∧
    decode 0x2060 = .ok (.call 0x060) := ⟨rfl, rfl, rfl⟩

theorem witness_ExecStep_unknown :
    State.reset.status = .run ∧ fetchWord State.reset = .ok (0x0000, 0x0202) ∧
    decode 0x0000 = .error (.unknownInstruction 0x0000) := ⟨rfl, rfl, rfl⟩

theorem witness_Fetch :
    (State.reset.setPc 0x0FFE).pc.toNat + 1 < 4096 ∧ 4096 ≤ (State.reset.setPc 0x1000).pc.toNat ∧
    4096 ≤ (State.reset.setPc 0xFFFF).pc.toNat ∧ (State.reset.setPc 0x0FFF).pc.toNat = 4095 := by decide

/-- Glyph bytes 20 60 at 0x005 are CALL 0x060; here the engine is the first move listed. -/
theorem witness_StepRunsTheDecodedInstruction :
    let s := (State.reset.setPc 0x005).setTurns [.engine, .tick]
    s.status = .run ∧ s.turns = .engine :: [.tick] ∧ s.pc.toNat + 1 < 4096 ∧
    decode (wordOfBytes (s.byteAt s.pc.toNat) (s.byteAt (s.pc.toNat + 1))) = .ok (.call 0x060) := by
  exact ⟨rfl, rfl, by decide, rfl⟩

theorem witness_UnknownWordIsFatal :
    let s := State.reset
    s.status = .run ∧ s.turns = [] ∧ s.pc.toNat + 1 < 4096 ∧
    wordOfBytes (s.byteAt s.pc.toNat) (s.byteAt (s.pc.toNat + 1)) = 0x0000 ∧ ∀ i, decode 0x0000 ≠ .ok i := by
  exact ⟨rfl, rfl, by decide, rfl, fun i => by rw [show decode 0x0000 = .error (.unknownInstruction 0x0000) from rfl]; simp⟩

theorem witness_FetchFaultKeepsPc :
    (State.reset.setPc 0x0FFF).status = .run ∧ (State.reset.setPc 0x0FFF).turns = [] ∧
    0x0FFF ≤ (State.reset.setPc 0x0FFF).pc.toNat ∧ 0x0FFF ≤ (State.reset.setPc 0x1000).pc.toNat := by decide

theorem witness_StepStopsExactlyInFault :
    State.reset.safe ∧ (State.reset.setStatus (.waitKey 3)).safe ∧
    (raise ⟨.stackUnderflow, 0⟩ State.reset).status = .fault ⟨.stackUnderflow, 0⟩ :=
  ⟨fun _ h => (nomatch h), fun _ h => (nomatch h), rfl⟩

theorem witness_TimerTickCountsDown :
    ((State.reset.setDt 1).setTurns [.tick]).safe ∧ ((State.reset.setDt 1).setTurns [.tick]).turns = .tick :: [] :=
  ⟨fun _ h => (nomatch h), rfl⟩

theorem witness_KeyPressEndsTheWait :
    ((State.reset.setStatus (.waitKey 0xF)).setTurns [.keyPress 0xF]).turns = .keyPress 0xF :: [] ∧
    ((State.reset.setStatus (.waitKey 0xF)).setTurns [.keyPress 0xF]).status = .waitKey 0xF ∧
    (State.reset.setTurns [.keyPress 0]).status = .run := by decide

theorem witness_WaitingEngineExecutesNothing :
    (State.reset.setStatus (.waitKey 4)).status = .waitKey 4 ∧
    ∀ k, Turn.keyPress k ∉ [Turn.engine, .tick, .setKeys 0x8000, .presentRandom 0xFF, .tick] :=
  ⟨rfl, fun k h => by simp at h⟩

/-- The engine at even times, the timer clock at odd ones. -/
def alternating : Schedule := fun n => if n % 2 = 0 then .engine else .tick

theorem witness_FairSchedules :
    FairSchedule alternating ∧ (∀ n k, alternating n ≠ .keyPress k) ∧
    (State.reset.setStatus (.waitKey 4)).status = .waitKey 4 := by
  refine ⟨⟨fun n => ⟨2 * n, by omega, ?_⟩, fun n => ⟨2 * n + 1, by omega, ?_⟩⟩, fun n k => ?_, rfl⟩
  · simp [alternating]
  · simp [alternating]
  · unfold alternating; split <;> simp

theorem witness_InputChanges :
    (State.reset.setTurns [.setKeys 0xFFFF]).safe ∧
    (State.reset.setTurns [.setKeys 0xFFFF]).turns = .setKeys 0xFFFF :: [] ∧
    (State.reset.setTurns [.presentRandom 0]).turns = .presentRandom 0 :: [] :=
  ⟨fun _ h => (nomatch h), rfl, rfl⟩

theorem witness_ParkedStates :
    (State.reset.withFetchWord 16 0x1200).parked ∧ (State.reset.withFetchWord 16 0x1200).turns = [] :=
  ⟨⟨rfl, by decide, rfl⟩, rfl⟩

/-- The last address where a self-jump fits. -/
theorem witness_ParkedStates_at_0FFE : ((State.reset.setPc 0x0FFE).withFetchWord 16 0x1FFE).parked :=
  ⟨rfl, by decide, rfl⟩

theorem witness_Stack :
    State.reset.sp = 0 ∧ 0 < (State.reset.setSp 16).sp ∧ (State.reset.setSp 16).sp ≤ 16 ∧
    0 < (State.reset.setSp 1).sp ∧ (State.reset.setSp 15).sp < 16 ∧ (State.reset.setSp 16).sp = 16 := by decide

theorem witness_NestedCallsReturn :
    State.reset.sp + (List.replicate 16 (0x300 : BitVec 12)).length ≤ 16 ∧
    (State.reset.setSp 16).sp + ([] : List (BitVec 12)).length ≤ 16 := by decide

theorem witness_KeySkips :
    ((State.reset.setReg 3 15).reg 3).toNat ≤ 15 ∧ 15 < ((State.reset.setReg 3 16).reg 3).toNat ∧
    15 < ((State.reset.setReg 3 255).reg 3).toNat := by decide

theorem witness_flag_clause : (0x0 : RegIx) ≠ 0xF ∧ (0xE : RegIx) ≠ 0xF := by decide

theorem witness_RandomByteIsMasked : (State.reset.setRng [0xA5, 1]).rng = 0xA5 :: [1] ∧ State.reset.rng = [] := by
  decide

theorem witness_Bcd :
    Memory.wf (State.reset.setI 0x0FFD).mem = true ∧ (State.reset.setI 0x0FFD).i.toNat + 3 ≤ 4096 := by decide

theorem witness_Blocks :
    Memory.wf (State.reset.setI 0x0FF0).mem = true ∧
    (State.reset.setI 0x0FF0).i.toNat + ((0xF : RegIx).toNat + 1) ≤ 4096 ∧
    (State.reset.setI 0x0FFF).i.toNat + ((0x0 : RegIx).toNat + 1) ≤ 4096 := by decide

theorem witness_FaultingStores :
    Memory.wf (State.reset.setI 0x0FFE).mem = true ∧ 4096 < (State.reset.setI 0x0FFE).i.toNat + 3 ∧
    4096 < (State.reset.setI 0xFFFF).i.toNat + 3 ∧
    4096 < (State.reset.setI 0x0FF1).i.toNat + ((0xF : RegIx).toNat + 1) ∧
    4096 < (State.reset.setI 0x1000).i.toNat + ((0x0 : RegIx).toNat + 1) := by decide

theorem witness_FaultingLoad :
    4096 < (State.reset.setI 0x0FFF).i.toNat + ((0x1 : RegIx).toNat + 1) ∧
    4096 < (State.reset.setI 0xFFFF).i.toNat + ((0x0 : RegIx).toNat + 1) := by decide

theorem witness_BlockRoundTrip :
    let s := State.reset.setI 0x300
    Memory.wf s.mem = true ∧ s.i.toNat + ((0x3 : RegIx).toNat + 1) ≤ 4096 ∧
    ∃ t, exec (.ldMemVx 0x3) s = .next t ∧ (t.setReg 0 0x77).i = s.i ∧ ∀ a, (t.setReg 0 0x77).byteAt a = t.byteAt a := by
  exact ⟨by decide, by decide, _, rfl, rfl, fun _ => rfl⟩

theorem witness_StoreIsSeen :
    let s := (State.reset.setPc 0x0FFE).setI 0x0FFE
    Memory.wf s.mem = true ∧ 1 ≤ (0x1 : RegIx).toNat ∧ s.i = s.pc ∧ s.i.toNat + ((0x1 : RegIx).toNat + 1) ≤ 4096 := by
  decide

theorem witness_Draw :
    (0 : Nibble).toNat = 0 ∧ (State.reset.setI 0x0FF1).i.toNat + (0xF : Nibble).toNat ≤ 4096 := by decide

/-- One row of the glyph of 0, 0xF0, at column 0, row 0: on a blank screen and on its own image. -/
theorem witness_Draw_collision :
    seen (fun t => (pixel t.fb 0 0, t.reg 0xF)) (exec (.drw 0 0 1) State.reset) = some (true, 0) ∧
    seen (fun t => (pixel t.fb 0 0, t.reg 0xF)) (exec (.drw 0 0 1) (State.reset.publish (togglePixel blankScreen 0 0))) =
      some (false, 1) := by decide

theorem witness_DrawOutside :
    0 < (1 : Nibble).toNat ∧ 4096 < (State.reset.setI 0x1000).i.toNat + (1 : Nibble).toNat ∧
    4096 < (State.reset.setI 0x0FF2).i.toNat + (0xF : Nibble).toNat := by decide

theorem witness_DrawingTwice :
    (0x0 : RegIx) ≠ 0xF ∧ (0xE : RegIx) ≠ 0xF ∧ State.reset.i.toNat + (5 : Nibble).toNat ≤ 4096 := by decide

theorem witness_SnapshotPort : 63 < 64 ∧ 31 < 32 ∧ 31 * 64 + 63 < 2048 := by decide

theorem witness_Frames :
    Memory.wf State.reset.mem = true ∧ exec (.ldI 0x300) State.reset = .next (State.reset.setI 0x0300) := ⟨rfl, rfl⟩

theorem witness_OnlyTheseFaults :
    State.reset.safe ∧ exec .ret State.reset = .next (raise ⟨.stackUnderflow, 0⟩ State.reset) ∧
    (raise ⟨.stackUnderflow, 0⟩ State.reset).status = .fault ⟨.stackUnderflow, 0⟩ :=
  ⟨fun _ h => (nomatch h), rfl, rfl⟩

/-- A state that meets the invariant and whose next step is an instruction's. -/
theorem witness_StepKeepsTheInvariant :
    let s := (State.reset.setPc 0x005).setSp 0
    s.Inv ∧ seen State.pc (step s) = some 0x0060 :=
  ⟨⟨rfl, by decide, rfl, fun _ h => absurd h (Nat.not_lt_zero _), by decide⟩, by decide⟩

theorem witness_SoundStaysOff : State.reset.st = 0 ∧ seen State.st (step State.reset) = some 0 := by decide

/-- Two states that differ in slot 15 only, with one entry on the stack. -/
theorem witness_DeadStackSlots :
    SameButDeadSlots (State.reset.setSp 1) ((State.reset.setSp 1).setSlot 15 0x1234) ∧
    State.reset.setSp 1 ≠ (State.reset.setSp 1).setSlot 15 0x1234 := by
  refine ⟨⟨rfl, fun k h => ?_, rfl⟩, fun h => ?_⟩
  · have hk : k = 0 := by have : k < 1 := h; omega
    subst hk; rfl
  · exact absurd (congrArg (fun s => s.slot 15) h) (by decide)

theorem witness_Memories : Memory.wf [(0x200, 1), (0xFFF, 2)] = true ∧ Memory.wf [(0x200, 0)] = false := by decide

theorem witness_WriteBlock :
    Memory.wf State.reset.mem = true ∧ 4094 + [1, (2 : Byte)].length ≤ 4096 ∧
    4096 < 4095 + [1, (2 : Byte)].length := by decide

theorem witness_Images :
    (List.replicate 3584 (0 : Byte)).length ≤ 3584 ∧ 3584 < (List.replicate 3585 (0 : Byte)).length := by
  rw [List.length_replicate, List.length_replicate]; decide

theorem witness_ResetState : 15 < 16 ∧ 4 < 5 ∧ 0x50 ≤ 0x50 ∧ 0xFFF < 4096 := by decide

end Sys2Proof.Tests
end

section
/-! PROOFS. What an instruction can do, said once: the instructions whose rule branches, branch by branch, and the
frames of all 33 (10_state.md R22, 20_memory.md R56). -/

namespace Sys2Proof.Machine

/-! ### The instructions whose rule branches -/

theorem exec_ret_empty {s : State} (h : s.sp = 0) : exec .ret s = .next (raise ⟨.stackUnderflow, 0⟩ s) := by
  simp only [exec, execRet, pop_empty h]

theorem exec_ret_top {s : State} {n : Nat} (h : s.sp = n + 1) :
    exec .ret s = .next ((s.setSp n).setPc (s.slot n)) := by
  simp only [exec, execRet, pop_top h]

theorem exec_call_full (nnn : BitVec 12) {s : State} (h : ¬ s.sp < Config.stackDepth) :
    exec (.call nnn) s = .next (raise ⟨.stackOverflow, s.pc.toNat⟩ s) := by
  simp only [exec, execCall, push_full s.pc h]

theorem exec_call_room (nnn : BitVec 12) {s : State} (h : s.sp < Config.stackDepth) :
    exec (.call nnn) s = .next (((s.setSlot s.sp s.pc).setSp (s.sp + 1)).setPc (addrOperand nnn)) := by
  simp only [exec, execCall, push_room s.pc h]

/-- The framebuffer and the collision of a DRW whose sprite is inside memory (44_display.md R191). -/
def drawn (x y : RegIx) (n : Nibble) (s : State) : FrameBuffer × Bool :=
  draw s.fb (s.reg x) (s.reg y) ((List.range n.toNat).map fun k => s.byteAt (s.i.toNat + k))

theorem exec_drw_in (x y : RegIx) {n : Nibble} {s : State} (h : n.toNat = 0 ∨ s.i.toNat + n.toNat ≤ 4096) :
    exec (.drw x y n) s =
      .next ((s.publish (drawn x y n s).1).setReg Config.flagReg (flagByte (drawn x y n s).2)) := by
  simp only [exec, execDrw, readSeq_block s n.toNat h, drawn]

theorem exec_drw_out (x y : RegIx) {n : Nibble} {s : State} (h : ¬ (n.toNat = 0 ∨ s.i.toNat + n.toNat ≤ 4096)) :
    exec (.drw x y n) s = .next (raise (accessFault (max s.i.toNat 4096)) s) := by
  have hread := readSeq_out s.mem (indexBase s) n.toNat (by omega) fun hle => h (.inr hle)
  simp only [exec, execDrw, hread]
  rfl

/-- RET pops, or faults and changes STATUS only (41_control_flow.md R120). -/
theorem exec_ret_cases {s t : State} (h : exec .ret s = .next t) :
    t = raise ⟨.stackUnderflow, 0⟩ s ∨ ∃ n, s.sp = n + 1 ∧ t = (s.setSp n).setPc (s.slot n) := by
  cases hsp : s.sp with
  | zero => exact .inl (Host.Outcome.next.inj ((exec_ret_empty hsp).symm.trans h)).symm
  | succ n => exact .inr ⟨n, rfl, (Host.Outcome.next.inj ((exec_ret_top hsp).symm.trans h)).symm⟩

/-- CALL pushes and jumps, or faults and changes STATUS only (41_control_flow.md R122). -/
theorem exec_call_cases {nnn : BitVec 12} {s t : State} (h : exec (.call nnn) s = .next t) :
    t = raise ⟨.stackOverflow, s.pc.toNat⟩ s ∨
    (s.sp < Config.stackDepth ∧ t = ((s.setSlot s.sp s.pc).setSp (s.sp + 1)).setPc (addrOperand nnn)) := by
  by_cases hsp : s.sp < Config.stackDepth
  · exact .inr ⟨hsp, (Host.Outcome.next.inj ((exec_call_room nnn hsp).symm.trans h)).symm⟩
  · exact .inl (Host.Outcome.next.inj ((exec_call_full nnn hsp).symm.trans h)).symm

/-- DRW publishes and writes VF, or faults and changes STATUS only (44_display.md R192). -/
theorem exec_drw_cases {x y : RegIx} {n : Nibble} {s t : State} (h : exec (.drw x y n) s = .next t) :
    (∃ c, t = raise c s) ∨ ∃ f b, t = (s.publish f).setReg Config.flagReg b := by
  by_cases hin : n.toNat = 0 ∨ s.i.toNat + n.toNat ≤ 4096
  · exact .inr ⟨_, _, (Host.Outcome.next.inj ((exec_drw_in x y hin).symm.trans h)).symm⟩
  · exact .inl ⟨_, (Host.Outcome.next.inj ((exec_drw_out x y hin).symm.trans h)).symm⟩

/-! ### Parts -/

/-- An instruction changes only the parts its rule names. -/
theorem exec_frame {i : Instr} {s t : State} (h : exec i s = .next t) : unchangedBut (writesParts i) s t := by
  cases i with
  | cls => cases h; exact unchangedBut_publish _ _
  | ret =>
    obtain rfl | ⟨n, hn, rfl⟩ := exec_ret_cases h
    · exact unchangedBut_mono (unchangedBut_raise _ _) (by simp [writesParts])
    · apply unchangedBut_intro <;> simp [writesParts]
  | call nnn =>
    obtain rfl | ⟨hsp, rfl⟩ := exec_call_cases h
    · exact unchangedBut_mono (unchangedBut_raise _ _) (by simp [writesParts])
    · apply unchangedBut_intro <;> simp [writesParts]
  | jp nnn | jpV0 nnn => cases h; exact unchangedBut_setPc _ _
  | seImm x kk | sneImm x kk => cases h; exact unchangedBut_skip _ _
  | seReg x y | sneReg x y => cases h; exact unchangedBut_skip _ _
  | skp x | sknp x =>
    cases h
    exact unchangedBut_trans (unchangedBut_mono (unchangedBut_keyDown _ _) (by simp [writesParts]))
      (unchangedBut_mono (unchangedBut_skip _ _) (by simp [writesParts]))
  | ldImm x kk | addImm x kk => cases h; exact unchangedBut_setReg _ _ _
  | ldReg x y | or x y | and x y | xor x y => cases h; exact unchangedBut_setReg _ _ _
  | addReg x y | sub x y | shr x y | subn x y | shl x y => cases h; exact unchangedBut_setFlagThenReg _ _ _ _
  | ldVxDt x => cases h; exact unchangedBut_setReg _ _ _
  | rnd x kk =>
    cases h
    exact unchangedBut_trans (unchangedBut_mono (unchangedBut_randomByte _) (by simp [writesParts]))
      (unchangedBut_mono (unchangedBut_setReg _ _ _) (by simp [writesParts]))
  | drw x y n =>
    obtain ⟨c, rfl⟩ | ⟨f, b, rfl⟩ := exec_drw_cases h
    · exact unchangedBut_mono (unchangedBut_raise _ _) (by simp [writesParts])
    · apply unchangedBut_intro <;> simp [writesParts]
  | ldI nnn => cases h; exact unchangedBut_setI _ _
  | addI x | ldF x => cases h; exact unchangedBut_setI _ _
  | ldDtVx x => cases h; exact unchangedBut_setDt _ _
  | ldVxK x => cases h; exact unchangedBut_setStatus _ _
  | ldB x | ldMemVx x => cases h; exact unchangedBut_storeSeq _ _ _
  | ldVxMem x => cases h; exact unchangedBut_loadSeq _ _ _

/-! ### Registers and bytes -/

/-- A block load leaves the registers past its last one. -/
theorem loadSeq_reg_past (a : Nat) {n : Nat} (s : State) {r : RegIx} (h : n ≤ r.toNat) :
    (loadSeq a n s).reg r = s.reg r := by
  have hr := r.isLt
  have hloaded (lands : Nat → Bool) (bs : List Byte) (hbs : bs.length ≤ n) : (loadRegs lands 0 bs s).reg r = s.reg r := by
    rw [loadRegs_reg _ _ _ _ (by omega), if_neg (by omega)]
  obtain ⟨bs, heq, hbs⟩ | ⟨bs, -, heq, hbs⟩ := loadSeq_cases a n s
  · rw [heq, hloaded _ _ hbs.le]
  · rw [heq, raise_reg, State.reg_nextDraw, hloaded _ _ hbs]

/-- An instruction leaves every register outside its row of the table of 10_state.md R22. -/
theorem exec_reg_of_not_writesReg {i : Instr} {s t : State} (h : exec i s = .next t) {r : RegIx}
    (hr : writesReg i r = false) : t.reg r = s.reg r := by
  cases i with
  | ldImm x kk | addImm x kk => cases h; exact State.reg_setReg_ne _ _ (by simpa [writesReg] using hr)
  | ldReg x y | or x y | and x y | xor x y =>
    cases h; exact State.reg_setReg_ne _ _ (by simpa [writesReg] using hr)
  | ldVxDt x => cases h; exact State.reg_setReg_ne _ _ (by simpa [writesReg] using hr)
  | addReg x y | sub x y | shr x y | subn x y | shl x y =>
    cases h; exact sameRegsBut_setFlagThenReg _ _ _ _ r (by simpa [writesReg] using hr)
  | rnd x kk =>
    cases h
    rw [State.reg_setReg_ne _ _ (by simpa [writesReg] using hr)]
    exact unchangedBut_randomByte s .regs (by simp) r
  | drw x y n =>
    obtain ⟨c, rfl⟩ | ⟨f, b, rfl⟩ := exec_drw_cases h
    · rfl
    · exact State.reg_setReg_ne _ _ (by simpa [writesReg] using hr)
  | ldVxMem x => cases h; exact loadSeq_reg_past _ _ (by simpa [writesReg, blockLength] using hr)
  | _ => exact exec_frame h .regs (by simp [writesParts]) r

/-- An instruction leaves every byte outside its row of the table of 20_memory.md R56. -/
theorem exec_sameBytesOutside {i : Instr} {s t : State} (hw : Memory.wf s.mem = true) (h : exec i s = .next t) :
    sameBytesOutside s.i.toNat (writesBytes i) s t := by
  cases i with
  | ldB x => cases h; exact sameBytesOutside_storeSeq _ (bcdDigits (s.reg x)) hw
  | ldMemVx x =>
    cases h
    have hstore := sameBytesOutside_storeSeq (indexBase s) (blockRegs x s) hw
    rwa [blockRegs_length] at hstore
  | _ => exact fun a _ => exec_frame h .memory (by simp [writesParts]) a

/-! ### The stack, the screen, memory and PC -/

/-- What an instruction can do to the stack: nothing, one push of PC, or one pop. -/
theorem exec_stack_cases {i : Instr} {s t : State} (h : exec i s = .next t) :
    (t.sp = s.sp ∧ ∀ k, t.slot k = s.slot k) ∨
    (s.sp < Config.stackDepth ∧ t.sp = s.sp + 1 ∧ ∀ k, t.slot k = if k = s.sp then s.pc else s.slot k) ∨
    (s.sp = t.sp + 1 ∧ ∀ k, t.slot k = s.slot k) := by
  cases i with
  | call nnn =>
    obtain rfl | ⟨hsp, rfl⟩ := exec_call_cases h
    · exact .inl ⟨rfl, fun _ => rfl⟩
    · exact .inr (.inl ⟨hsp, rfl, fun k => State.slot_setSlot s s.pc k hsp⟩)
  | ret =>
    obtain rfl | ⟨n, hn, rfl⟩ := exec_ret_cases h
    · exact .inl ⟨rfl, fun _ => rfl⟩
    · exact .inr (.inr ⟨hn, fun _ => rfl⟩)
  | _ => exact .inl (exec_frame h .stack (by simp [writesParts]))

/-- An instruction leaves the screen and its snapshot, or publishes the screen it leaves (44_display.md R194). -/
theorem exec_screen_cases {i : Instr} {s t : State} (h : exec i s = .next t) :
    (t.fb = s.fb ∧ t.snapshot = s.snapshot) ∨ t.snapshot = t.fb := by
  cases i with
  | cls => cases h; exact .inr rfl
  | drw x y n =>
    obtain ⟨c, rfl⟩ | ⟨f, b, rfl⟩ := exec_drw_cases h
    · exact .inl ⟨rfl, rfl⟩
    · exact .inr rfl
  | _ => exact .inl (exec_frame h .screen (by simp [writesParts]))

@[simp] theorem skip_mem (c : Bool) (s : State) : (skip c s).mem = s.mem := by cases c <;> rfl

@[simp] theorem keyDown_mem (k : Byte) (s : State) : (keyDown k s).2.mem = s.mem := by
  unfold keyDown
  split <;> rfl

@[simp] theorem randomByte_mem (s : State) : (randomByte s).2.mem = s.mem := by
  unfold randomByte
  split <;> rfl

/-- An instruction keeps the canonical form of memory. -/
theorem exec_keeps_wf {i : Instr} {s t : State} (hw : Memory.wf s.mem = true) (h : exec i s = .next t) :
    Memory.wf t.mem = true := by
  cases i with
  | ldB x | ldMemVx x => cases h; exact storeSeq_wf _ _ hw
  | ret => obtain rfl | ⟨n, hn, rfl⟩ := exec_ret_cases h <;> exact hw
  | call nnn => obtain rfl | ⟨hsp, rfl⟩ := exec_call_cases h <;> exact hw
  | drw x y n => obtain ⟨c, rfl⟩ | ⟨f, b, rfl⟩ := exec_drw_cases h <;> exact hw
  | seImm x kk | sneImm x kk => cases h; rwa [skip_mem]
  | seReg x y | sneReg x y => cases h; rwa [skip_mem]
  | skp x | sknp x => cases h; rwa [skip_mem, keyDown_mem]
  | rnd x kk => cases h; rwa [State.setReg_mem, randomByte_mem]
  | ldVxMem x => cases h; rwa [loadSeq_mem]
  | _ => cases h; exact hw

@[simp] theorem offsetTarget_toNat (nnn : BitVec 12) (base : Byte) :
    (offsetTarget nnn base).toNat = nnn.toNat + base.toNat := by
  have hn := nnn.isLt
  have hb := base.isLt
  simp only [offsetTarget, BitVec.toNat_add, addrOperand_toNat, BitVec.toNat_setWidth]
  omega

/-- A skip leaves PC or adds 2 to it. -/
theorem skip_pc_cases (c : Bool) (s : State) : (skip c s).pc = s.pc ∨ (skip c s).pc = s.pc + 2 := by
  cases c
  · exact .inl rfl
  · exact .inr rfl

theorem skip_keyDown_pc_cases (c : Bool) (k : Byte) (s : State) :
    (skip c (keyDown k s).2).pc = s.pc ∨ (skip c (keyDown k s).2).pc = s.pc + 2 := by
  simpa using skip_pc_cases c (keyDown k s).2

end Sys2Proof.Machine
end

section
/-! PROOFS. What one step can do: the agents' moves (60_exceptions.md R242), and the scheme by which a property is shown to
be kept by every one of them. -/

namespace Sys2Proof.Machine

theorem step_of_fault {s : State} {c : FaultCause} (h : s.status = .fault c) : step s = .fault (.stopped c) := by
  simp only [step, nextStep, h]

/-- Outside FAULT a step is the move of the first agent listed, the engine's where none is. -/
theorem step_of_safe {s : State} (hs : s.safe) :
    step s = takeTurn (s.turns.headD .engine) (s.setTurns s.turns.tail) := by
  cases ht : s.turns with
  | cons m ts => exact step_turn hs ht
  | nil =>
    have hself : s.setTurns [] = s := by rw [← ht]; rfl
    unfold step nextStep
    split
    case h_1 c hc => exact absurd hc (hs c)
    all_goals simp only [ht, List.headD_nil, List.tail_nil, hself]

theorem safe_of_step_next {s t : State} (h : step s = .next t) : s.safe := by
  intro c hc
  rw [step_of_fault hc] at h
  cases h

theorem keyPressed_waiting {s : State} {x : RegIx} (k : Nibble) (h : s.status = .waitKey x) :
    keyPressed k s = (s.setReg x (k.setWidth 8)).setStatus .run := by
  simp only [keyPressed, h]

theorem keyPressed_not_waiting {s : State} (k : Nibble) (h : ∀ x, s.status ≠ .waitKey x) : keyPressed k s = s := by
  unfold keyPressed
  split
  case h_1 x hx => exact absurd hx (h x)
  all_goals rfl

/-- An engine's step faults at the fetch or at an unknown word, or runs the instruction fetched, PC past it
(40_execution_loop.md R101). -/
theorem execStep_cases {s t : State} (h : execStep s = .next t) :
    (∃ c, t = raise c s) ∨
    (s.pc.toNat + 1 < Config.memSize ∧
      ((∃ c, t = raise c (s.setPc (s.pc + 2))) ∨ ∃ i, exec i (s.setPc (s.pc + 2)) = .next t)) := by
  by_cases hpc : s.pc.toNat + 1 < Config.memSize
  · refine .inr ⟨hpc, ?_⟩
    rw [execStep_in hpc, executeWord] at h
    split at h
    · exact .inl ⟨_, (Host.Outcome.next.inj h).symm⟩
    · exact .inr ⟨_, h⟩
  · rw [execStep_out hpc] at h
    exact .inl ⟨_, (Host.Outcome.next.inj h).symm⟩

theorem engineMove_run {s : State} (h : s.status = .run) : engineMove s = execStep s := by
  simp only [engineMove, h]

theorem engineMove_idle {s : State} (h : s.status ≠ .run) : engineMove s = .next s := by
  unfold engineMove
  split
  case h_1 hr => exact absurd hr h
  all_goals rfl

/-! ### Every instruction and every move answers a next state -/

theorem exec_next (i : Instr) (s : State) : ∃ t, exec i s = .next t := by
  cases i with
  | ret =>
    cases hsp : s.sp with
    | zero => exact ⟨_, exec_ret_empty hsp⟩
    | succ n => exact ⟨_, exec_ret_top hsp⟩
  | call nnn =>
    by_cases hsp : s.sp < Config.stackDepth
    · exact ⟨_, exec_call_room nnn hsp⟩
    · exact ⟨_, exec_call_full nnn hsp⟩
  | drw x y n =>
    by_cases hin : n.toNat = 0 ∨ s.i.toNat + n.toNat ≤ 4096
    · exact ⟨_, exec_drw_in x y hin⟩
    · exact ⟨_, exec_drw_out x y hin⟩
  | _ => exact ⟨_, rfl⟩

theorem executeWord_next (w : Word) (s : State) : ∃ t, executeWord w s = .next t := by
  unfold executeWord
  split
  · exact ⟨_, rfl⟩
  · exact exec_next _ s

theorem execStep_next (s : State) : ∃ t, execStep s = .next t := by
  by_cases hpc : s.pc.toNat + 1 < Config.memSize
  · rw [execStep_in hpc]; exact executeWord_next _ _
  · exact ⟨_, execStep_out hpc⟩

theorem takeTurn_next (m : Turn) (s : State) : ∃ t, takeTurn m s = .next t := by
  cases m with
  | engine =>
    by_cases hr : s.status = .run
    · rw [takeTurn, engineMove_run hr]; exact execStep_next s
    · exact ⟨s, engineMove_idle hr⟩
  | _ => exact ⟨_, rfl⟩

theorem step_next_of_safe {s : State} (hs : s.safe) : ∃ t, step s = .next t := by
  rw [step_of_safe hs]
  exact takeTurn_next _ _

/-! ### What every move keeps -/

/-- A property is kept by every step when each agent's move keeps it: the move leaving the list, a fault taken, the fetch
inside memory, an instruction, a tick, a key press that ends a wait, a new key level and a random byte presented. `Q` is
what holds between the fetch and the instruction's effect. -/
theorem step_keeps {P Q : State → Prop} (turns : ∀ {s : State} ts, P s → P (s.setTurns ts))
    (raised : ∀ {s : State} c, P s → P (raise c s))
    (fetched : ∀ {s : State}, P s → s.pc.toNat + 1 < Config.memSize → Q (s.setPc (s.pc + 2)))
    (unknown : ∀ {s : State} c, Q s → P (raise c s))
    (executed : ∀ {i : Instr} {s t : State}, Q s → exec i s = .next t → P t)
    (tick : ∀ {s : State}, P s → P (timerTick s))
    (press : ∀ {s : State} x b, P s → P ((s.setReg x b).setStatus .run))
    (keys : ∀ {s : State} d, P s → P (s.setKeyDown d)) (random : ∀ {s : State} bs, P s → P (s.setRng bs))
    {s t : State} (hs : P s) (h : step s = .next t) : P t := by
  rw [step_of_safe (safe_of_step_next h)] at h
  have hu := turns s.turns.tail hs
  generalize s.setTurns s.turns.tail = u at h hu
  generalize s.turns.headD .engine = m at h
  cases m with
  | engine =>
    by_cases hr : u.status = .run
    · rw [takeTurn, engineMove_run hr] at h
      obtain ⟨c, rfl⟩ | ⟨hpc, ⟨c, rfl⟩ | ⟨i, hi⟩⟩ := execStep_cases h
      · exact raised c hu
      · exact unknown c (fetched hu hpc)
      · exact executed (fetched hu hpc) hi
    · rw [takeTurn, engineMove_idle hr] at h
      cases h; exact hu
  | tick => cases h; exact tick hu
  | keyPress k =>
    cases h
    by_cases hx : ∃ x, u.status = .waitKey x
    · obtain ⟨x, hx⟩ := hx
      rw [keyPressed_waiting k hx]
      exact press x _ hu
    · rw [keyPressed_not_waiting k fun x h => hx ⟨x, h⟩]
      exact hu
  | setKeys d => cases h; exact keys d hu
  | presentRandom b => cases h; exact random _ hu

end Sys2Proof.Machine
end

section
/-! PROOFS. Where PC goes (10_state.md R24), the invariant kept by every step (R24, R28; 44_display.md R194), and the
sound that stays off (10_state.md R27). -/

namespace Sys2Proof.Machine

/-- Settles O50: the frame gives the instructions without PC in their row; each of the others has its own target. -/
theorem pcChangesOnlyByControlFlow : Obligations.PcChangesOnlyByControlFlow := by
  intro i s t h
  cases i with
  | seImm x kk | sneImm x kk =>
    cases h
    exact (skip_pc_cases _ _).imp id fun hpc => .inl ⟨hpc, .inl ⟨x, kk, by simp⟩⟩
  | seReg x y | sneReg x y =>
    cases h
    exact (skip_pc_cases _ _).imp id fun hpc => .inl ⟨hpc, .inr (.inl ⟨x, y, by simp⟩)⟩
  | skp x | sknp x =>
    cases h
    exact (skip_keyDown_pc_cases _ _ _).imp id fun hpc => .inl ⟨hpc, .inr (.inr ⟨x, by simp⟩)⟩
  | jp nnn => cases h; exact .inr (.inr (.inl ⟨nnn, .inl rfl, addrOperand_toNat nnn⟩))
  | call nnn =>
    obtain rfl | ⟨-, rfl⟩ := exec_call_cases h
    · exact .inl rfl
    · exact .inr (.inr (.inl ⟨nnn, .inr rfl, addrOperand_toNat nnn⟩))
  | jpV0 nnn => cases h; exact .inr (.inr (.inr (.inl ⟨nnn, rfl, offsetTarget_toNat nnn _⟩)))
  | ret =>
    obtain rfl | ⟨n, hn, rfl⟩ := exec_ret_cases h
    · exact .inl rfl
    · exact .inr (.inr (.inr (.inr ⟨rfl, by omega, by rw [hn]; rfl⟩)))
  | _ => exact .inl (exec_frame h .pc (by simp [writesParts]))

/-- The PC after an instruction fetched inside memory is at most 0xFFF + 0xFF, the farthest target of JP V0. -/
theorem exec_pc_le {i : Instr} {s t : State} (hs : s.Inv) (hpc : s.pc.toNat ≤ 0x1000) (h : exec i s = .next t) :
    t.pc.toNat ≤ 0x10FE := by
  obtain hsame | ⟨hskip, -⟩ | ⟨nnn, -, hjump⟩ | ⟨nnn, -, hoffset⟩ | ⟨-, hsp, hpop⟩ :=
    pcChangesOnlyByControlFlow i s t h
  · rw [hsame]; omega
  · rw [hskip, BitVec.toNat_add_of_lt (by simp; omega)]; simp; omega
  · have := nnn.isLt; omega
  · have := nnn.isLt; have := (s.reg 0).isLt; omega
  · have := hs.slot_le (s.sp - 1) (by omega)
    rw [hpop]; omega

/-- After an instruction the stack is at most 16 deep and holds return addresses of at most 0x1000. -/
theorem exec_keeps_stack {i : Instr} {s t : State} (hs : s.Inv) (hpc : s.pc.toNat ≤ 0x1000) (h : exec i s = .next t) :
    t.sp ≤ Config.stackDepth ∧ ∀ k, k < t.sp → (t.slot k).toNat ≤ 0x1000 := by
  have hsp := hs.sp_le
  obtain ⟨heq, hslots⟩ | ⟨hroom, hpush, hslots⟩ | ⟨hpop, hslots⟩ := exec_stack_cases h
  · exact ⟨by omega, fun k hk => by rw [hslots]; exact hs.slot_le k (by omega)⟩
  · refine ⟨by omega, fun k hk => ?_⟩
    rw [hslots]
    split
    · exact hpc
    · exact hs.slot_le k (by omega)
  · exact ⟨by omega, fun k hk => by rw [hslots]; exact hs.slot_le k (by omega)⟩

theorem exec_keeps_inv {i : Instr} {s t : State} (hs : s.Inv) (hpc : s.pc.toNat ≤ 0x1000) (h : exec i s = .next t) :
    t.Inv where
  mem_wf := exec_keeps_wf hs.mem_wf h
  sp_le := (exec_keeps_stack hs hpc h).1
  snapshot_eq := by
    obtain ⟨hfb, hsnap⟩ | hpublished := exec_screen_cases h
    · rw [hfb, hsnap, hs.snapshot_eq]
    · exact hpublished
  slot_le := (exec_keeps_stack hs hpc h).2
  pc_le := exec_pc_le hs hpc h

/-- The invariant speaks of memory, the stack, the screen and PC only. -/
theorem State.Inv.of_eq {s t : State} (hs : s.Inv) (mem : t.mem = s.mem) (sp : t.sp = s.sp) (stack : t.stack = s.stack)
    (fb : t.fb = s.fb) (snapshot : t.snapshot = s.snapshot) (pc : t.pc.toNat ≤ 0x10FE) : t.Inv where
  mem_wf := mem ▸ hs.mem_wf
  sp_le := sp ▸ hs.sp_le
  snapshot_eq := by rw [snapshot, fb, hs.snapshot_eq]
  slot_le k hk := by rw [State.slot, stack]; exact hs.slot_le k (sp ▸ hk)
  pc_le := pc

/-- A fetch inside memory leaves PC at most 0x1000. -/
theorem fetched_pc_le {s : State} (h : s.pc.toNat + 1 < Config.memSize) : (s.pc + 2).toNat ≤ 0x1000 := by
  have hpc : s.pc.toNat + 1 < 4096 := h
  rw [BitVec.toNat_add_of_lt (by simp; omega)]
  simp; omega

/-- Settles O53: every clause is a fact about the reset values. -/
theorem resetMeetsTheInvariant : Obligations.ResetMeetsTheInvariant where
  mem_wf := Memory.wf_nil
  sp_le := Nat.zero_le _
  snapshot_eq := rfl
  slot_le _ hk := absurd hk (Nat.not_lt_zero _)
  pc_le := by decide

/-- Settles O52: an instruction keeps the invariant from a PC of at most 0x1000, where the fetch leaves it, and no other
move touches what the invariant speaks of. -/
theorem stepKeepsTheInvariant : Obligations.StepKeepsTheInvariant := by
  intro s t hs h
  refine step_keeps (P := State.Inv) (Q := fun s => s.Inv ∧ s.pc.toNat ≤ 0x1000) ?turns ?raised ?fetched ?unknown
    ?executed ?tick ?press ?keys ?random hs h
  case fetched =>
    intro s hs hpc
    have hle := fetched_pc_le hpc
    exact ⟨hs.of_eq rfl rfl rfl rfl rfl (by simp only [State.setPc_pc]; omega), hle⟩
  case unknown => exact fun c hs => hs.1.of_eq rfl rfl rfl rfl rfl hs.1.pc_le
  case executed => exact fun hs h => exec_keeps_inv hs.1 hs.2 h
  case tick => exact fun hs => hs.of_eq rfl rfl rfl rfl rfl hs.pc_le
  case turns => exact fun ts hs => hs.of_eq rfl rfl rfl rfl rfl hs.pc_le
  case raised => exact fun c hs => hs.of_eq rfl rfl rfl rfl rfl hs.pc_le
  case press => exact fun x b hs => hs.of_eq rfl rfl rfl rfl rfl hs.pc_le
  case keys => exact fun d hs => hs.of_eq rfl rfl rfl rfl rfl hs.pc_le
  case random => exact fun bs hs => hs.of_eq rfl rfl rfl rfl rfl hs.pc_le

/-- No instruction writes ST (D4). -/
theorem exec_st {i : Instr} {s t : State} (h : exec i s = .next t) : t.st = s.st :=
  exec_frame h .sound (by cases i <;> simp [writesParts])

/-- Settles O55: no instruction writes ST, and a tick leaves 0 at 0. -/
theorem soundStaysOff : Obligations.SoundStaysOff := by
  intro s t hs h
  have ht : t.st = 0 := by
    refine step_keeps (P := fun s => s.st = 0) (Q := fun s => s.st = 0) ?turns ?raised ?fetched ?unknown ?executed ?tick
      ?press ?keys ?random hs h
    case executed => exact fun hs h => (exec_st h).trans hs
    case tick => exact fun {s} hs => by rw [timerTick, State.setSt_st, hs]; rfl
    case fetched => exact fun hs _ => hs
    case press => exact fun _ _ hs => hs
    all_goals exact fun _ hs => hs
  exact ⟨ht, by rw [soundOn, ht]; rfl⟩

end Sys2Proof.Machine
end

section
/-! PROOFS. Stack slots at or above SP are never observed (10_state.md R28): with other stack contents, every operation
but a push and a pop does the same. -/

namespace Sys2Proof.Machine

/-- Replace the contents of the stack, not its depth. -/
def State.setStack (s : State) (w : Vector Word Config.stackDepth) : State := { s with stack := w }

@[simp] theorem State.setStack_mem (s : State) (w) : (s.setStack w).mem = s.mem := rfl
@[simp] theorem State.reg_setStack (s : State) (w) (r : RegIx) : (s.setStack w).reg r = s.reg r := rfl

/-- States that differ at most in dead slots: the second is the first with stack contents that agree on the live slots. -/
theorem sameButDeadSlots_iff {s s' : State} :
    SameButDeadSlots s s' ↔ ∃ w, s' = s.setStack w ∧ ∀ k, k < s.sp → (s.setStack w).slot k = s.slot k := by
  constructor
  · intro h
    have hs' : s' = s.setStack s'.stack := h.rest
    exact ⟨s'.stack, hs', fun k hk => by rw [← hs']; exact h.slots k hk⟩
  · rintro ⟨w, rfl, hslots⟩
    exact ⟨rfl, hslots, rfl⟩

/-- An operation that does not see the stack and leaves it keeps the relation. -/
theorem SameButDeadSlots.map {s s' : State} (h : SameButDeadSlots s s') {g : State → State}
    (comm : ∀ w, g (s.setStack w) = (g s).setStack w) (sp : (g s).sp = s.sp) (slots : ∀ k, (g s).slot k = s.slot k) :
    SameButDeadSlots (g s) (g s') := by
  obtain ⟨w, rfl, hlive⟩ := sameButDeadSlots_iff.1 h
  rw [comm]
  exact sameButDeadSlots_iff.2 ⟨w, rfl, fun k hk => (hlive k (sp ▸ hk)).trans (slots k).symm⟩

theorem SameButDeadSlots.raise {s s' : State} (h : SameButDeadSlots s s') (c : FaultCause) :
    SameButDeadSlots (raise c s) (raise c s') :=
  h.map (fun _ => rfl) rfl fun _ => rfl

theorem SameButDeadSlots.status {s s' : State} (h : SameButDeadSlots s s') : s'.status = s.status := by
  rw [h.rest]

theorem SameButDeadSlots.turns {s s' : State} (h : SameButDeadSlots s s') : s'.turns = s.turns := by
  rw [h.rest]

/-! ### The operations on other stack contents -/

theorem skip_setStack (c : Bool) (s : State) (w) : skip c (s.setStack w) = (skip c s).setStack w := by
  cases c <;> rfl

theorem randomByte_setStack (s : State) (w) :
    randomByte (s.setStack w) = ((randomByte s).1, (randomByte s).2.setStack w) := by
  cases hr : s.rng with
  | nil => rw [randomByte_free hr, randomByte_free (s := s.setStack w) hr]; rfl
  | cons b bs => rw [randomByte_presented hr, randomByte_presented (s := s.setStack w) hr]; rfl

theorem keyDown_setStack (k : Byte) (s : State) (w) :
    keyDown k (s.setStack w) = ((keyDown k s).1, (keyDown k s).2.setStack w) := by
  by_cases hk : k.toNat < Config.numKeys
  · rw [keyDown_port hk, keyDown_port hk]; rfl
  · rw [keyDown_free hk, keyDown_free hk]; rfl

theorem storeSeq_setStack (a : Nat) (bs : List Byte) (s : State) (w) :
    storeSeq a bs (s.setStack w) = (storeSeq a bs s).setStack w := by
  rcases hw : writeSeq allLand 0 a bs s.mem with ⟨m, _ | c⟩
  all_goals simp only [storeSeq, State.setStack_mem, hw]; rfl

theorem loadRegs_setStack (lands : Nat → Bool) (k : Nat) (bs : List Byte) (s : State) (w) :
    loadRegs lands k bs (s.setStack w) = (loadRegs lands k bs s).setStack w := by
  induction bs generalizing k s with
  | nil => rfl
  | cons b bs ih =>
    simp only [loadRegs]
    rw [← ih]
    split <;> rfl

theorem loadSeq_setStack (a n : Nat) (s : State) (w) :
    loadSeq a n (s.setStack w) = (loadSeq a n s).setStack w := by
  rcases hr : readSeq s.mem a n with ⟨bs, _ | c⟩
  · simp only [loadSeq, State.setStack_mem, hr, loadRegs_setStack]
  · simp only [loadSeq, State.setStack_mem, hr, loadRegs_setStack]; rfl

theorem keyPressed_setStack (k : Nibble) (s : State) (w) :
    keyPressed k (s.setStack w) = (keyPressed k s).setStack w := by
  by_cases hx : ∃ x, s.status = .waitKey x
  · obtain ⟨x, hx⟩ := hx
    rw [keyPressed_waiting k hx, keyPressed_waiting (s := s.setStack w) k hx]; rfl
  · have hx : ∀ x, s.status ≠ .waitKey x := fun x h => hx ⟨x, h⟩
    rw [keyPressed_not_waiting k hx, keyPressed_not_waiting (s := s.setStack w) k hx]

@[simp] theorem keyPressed_sp (k : Nibble) (s : State) : (keyPressed k s).sp = s.sp := by
  unfold keyPressed
  split <;> rfl

@[simp] theorem keyPressed_slot (k : Nibble) (s : State) (j : Nat) : (keyPressed k s).slot j = s.slot j := by
  unfold keyPressed
  split <;> rfl

/-! ### Instructions, moves and steps -/

/-- An instruction without the stack among its parts does the same on other stack contents, and leaves them. -/
theorem exec_setStack {i : Instr} (hi : Part.stack ∉ writesParts i) {s t : State} (h : exec i s = .next t) (w) :
    exec i (s.setStack w) = .next (t.setStack w) := by
  cases i with
  | ret | call nnn => exact absurd (by simp [writesParts]) hi
  | seImm x kk | sneImm x kk => cases h; exact congrArg _ (skip_setStack _ _ _)
  | seReg x y | sneReg x y => cases h; exact congrArg _ (skip_setStack _ _ _)
  | skp x | sknp x =>
    cases h
    simp only [exec, execSkp, execSknp, State.reg_setStack, keyDown_setStack, skip_setStack]
  | rnd x kk => cases h; simp only [exec, execRnd, randomByte_setStack]; rfl
  | drw x y n =>
    by_cases hin : n.toNat = 0 ∨ s.i.toNat + n.toNat ≤ 4096
    · obtain rfl := Host.Outcome.next.inj ((exec_drw_in x y hin).symm.trans h)
      exact exec_drw_in x y hin
    · obtain rfl := Host.Outcome.next.inj ((exec_drw_out x y hin).symm.trans h)
      exact exec_drw_out x y hin
  | ldB x | ldMemVx x => cases h; exact congrArg _ (storeSeq_setStack _ _ _ _)
  | ldVxMem x => cases h; exact congrArg _ (loadSeq_setStack _ _ _ _)
  | _ => cases h; rfl

theorem exec_ret_alike {s s' t : State} (hss : SameButDeadSlots s s') (h : exec .ret s = .next t) :
    ∃ t', exec .ret s' = .next t' ∧ SameButDeadSlots t t' := by
  obtain ⟨w, rfl, hlive⟩ := sameButDeadSlots_iff.1 hss
  cases hsp : s.sp with
  | zero =>
    rw [exec_ret_empty hsp] at h
    cases h
    exact ⟨_, exec_ret_empty hsp, hss.raise _⟩
  | succ n =>
    rw [exec_ret_top hsp] at h
    cases h
    refine ⟨_, exec_ret_top hsp, sameButDeadSlots_iff.2 ⟨w, ?_, fun k (hk : k < n) => hlive k (by omega)⟩⟩
    rw [hlive n (by omega)]; rfl

theorem exec_call_alike {nnn : BitVec 12} {s s' t : State} (hss : SameButDeadSlots s s')
    (h : exec (.call nnn) s = .next t) : ∃ t', exec (.call nnn) s' = .next t' ∧ SameButDeadSlots t t' := by
  obtain ⟨w, rfl, hlive⟩ := sameButDeadSlots_iff.1 hss
  by_cases hsp : s.sp < Config.stackDepth
  · rw [exec_call_room nnn hsp] at h
    cases h
    refine ⟨_, exec_call_room nnn hsp, ⟨rfl, fun k (hk : k < s.sp + 1) => ?_, rfl⟩⟩
    have hpushed := State.slot_setSlot s s.pc k hsp
    have hpushed' := State.slot_setSlot (s.setStack w) s.pc k hsp
    refine hpushed'.trans (Eq.trans ?_ hpushed.symm)
    split
    · rfl
    · exact hlive k (by omega)
  · rw [exec_call_full nnn hsp] at h
    cases h
    exact ⟨_, exec_call_full nnn hsp, hss.raise _⟩

theorem exec_alike {i : Instr} {s s' t : State} (hss : SameButDeadSlots s s') (h : exec i s = .next t) :
    ∃ t', exec i s' = .next t' ∧ SameButDeadSlots t t' := by
  by_cases hi : Part.stack ∈ writesParts i
  · cases i with
    | ret => exact exec_ret_alike hss h
    | call nnn => exact exec_call_alike hss h
    | _ => simp [writesParts] at hi
  · obtain ⟨w, rfl, hlive⟩ := sameButDeadSlots_iff.1 hss
    obtain ⟨hsp, hslots⟩ := exec_frame h .stack hi
    exact ⟨_, exec_setStack hi h w,
      sameButDeadSlots_iff.2 ⟨w, rfl, fun k hk => (hlive k (hsp ▸ hk)).trans (hslots k).symm⟩⟩

theorem executeWord_alike {word : Word} {s s' t : State} (hss : SameButDeadSlots s s')
    (h : executeWord word s = .next t) : ∃ t', executeWord word s' = .next t' ∧ SameButDeadSlots t t' := by
  unfold executeWord at h ⊢
  cases hd : decode word with
  | error e => rw [hd] at h; cases h; exact ⟨_, rfl, hss.raise _⟩
  | ok i => rw [hd] at h; exact exec_alike hss h

theorem execStep_alike {s s' t : State} (hss : SameButDeadSlots s s') (h : execStep s = .next t) :
    ∃ t', execStep s' = .next t' ∧ SameButDeadSlots t t' := by
  obtain ⟨w, rfl, -⟩ := sameButDeadSlots_iff.1 hss
  by_cases hpc : s.pc.toNat + 1 < Config.memSize
  · rw [execStep_in hpc] at h
    rw [execStep_in (s := s.setStack w) hpc]
    exact executeWord_alike (hss.map (g := fun u => u.setPc (u.pc + 2)) (fun _ => rfl) rfl fun _ => rfl) h
  · rw [execStep_out hpc] at h
    cases h
    exact ⟨_, execStep_out (s := s.setStack w) hpc, hss.raise _⟩

theorem takeTurn_alike (m : Turn) {s s' t : State} (hss : SameButDeadSlots s s') (h : takeTurn m s = .next t) :
    ∃ t', takeTurn m s' = .next t' ∧ SameButDeadSlots t t' := by
  cases m with
  | engine =>
    rw [takeTurn] at h ⊢
    by_cases hr : s.status = .run
    · rw [engineMove_run hr] at h
      rw [engineMove_run (hss.status.trans hr)]
      exact execStep_alike hss h
    · rw [engineMove_idle hr] at h
      cases h
      exact ⟨s', engineMove_idle (hss.status ▸ hr), hss⟩
  | tick => cases h; exact ⟨_, rfl, hss.map (fun _ => rfl) rfl fun _ => rfl⟩
  | keyPress k =>
    cases h
    exact ⟨_, rfl, hss.map (keyPressed_setStack k s) (keyPressed_sp k s) (keyPressed_slot k s)⟩
  | setKeys d => cases h; exact ⟨_, rfl, hss.map (g := (·.setKeyDown d)) (fun _ => rfl) rfl fun _ => rfl⟩
  | presentRandom b =>
    cases h
    exact ⟨_, rfl, hss.map (g := fun u => u.setRng (u.rng ++ [b])) (fun _ => rfl) rfl fun _ => rfl⟩

/-- Settles O56: the same agent moves in both states, and each move keeps the relation; a step stops in FAULT only, which
both states show alike. -/
theorem deadStackSlotsAreUnobservable : Obligations.DeadStackSlotsAreUnobservable := by
  intro s s' hss
  constructor
  · intro t h
    have hs : s.safe := safe_of_step_next h
    have hs' : s'.safe := by rw [State.safe, hss.status]; exact hs
    rw [step_of_safe hs] at h
    rw [step_of_safe hs', hss.turns]
    exact takeTurn_alike _ (hss.map (g := (·.setTurns _)) (fun _ => rfl) rfl fun _ => rfl) h
  · intro f h
    cases hst : s.status with
    | fault c => rwa [step_of_fault (hss.status.trans hst), ← step_of_fault hst]
    | run | waitKey x =>
      obtain ⟨t, ht⟩ := step_next_of_safe (s := s) (by simp [State.safe, hst])
      rw [h] at ht
      cases ht

end Sys2Proof.Machine
end

section
/-! PROOFS. The frames of the instructions, the output port, and the moves of the host. -/

namespace Sys2Proof.Machine

/-- Settles O49: the parts, the registers and the bytes, each from its own frame of `exec`. -/
theorem instructionsChangeOnlyTheirParts : Obligations.InstructionsChangeOnlyTheirParts :=
  fun _ _ _ hw h => ⟨exec_frame h, fun _ hr => exec_reg_of_not_writesReg h hr, exec_sameBytesOutside hw h⟩

/-- Settles O47: the bits of the port are laid out row by row, 64 to a row. -/
theorem snapshotPortLayout : Obligations.SnapshotPortLayout := by
  intro s x y hx hy
  have hcol : (y * 64 + x) % 64 = x := by omega
  have hrow : (y * 64 + x) / 64 = y := by omega
  rw [fbSnapshot, snapshotBits_getLsbD s 2048 _ (by omega), snapshotBit, hcol, hrow]

/-- Settles O20: the two branches of `pop`, by the depth of the stack. -/
theorem popTakesTheTop : Obligations.PopTakesTheTop := by
  intro s
  refine ⟨pop_empty, fun hsp => ⟨s.setSp (s.sp - 1), pop_top (by omega), rfl, fun _ => rfl, ?_⟩⟩
  apply unchangedBut_intro <;> simp

/-- Settles O15: the press is the step's move; it writes Vx and STATUS in a wait and nothing outside one. -/
theorem keyPressEndsTheWait : Obligations.KeyPressEndsTheWait := by
  intro s ts k hts
  constructor
  · intro x hx
    have hstep : step s = .next (((s.setTurns ts).setReg x (k.setWidth 8)).setStatus .run) := by
      rw [step_turn (by simp [State.safe, hx]) hts, takeTurn, keyPressed_waiting (s := s.setTurns ts) k hx]
    refine ⟨_, hstep, ?_, rfl, rfl, sameRegsBut_setReg (s.setTurns ts) x _, ?_⟩
    · have hk := k.isLt
      simp only [State.reg_setStatus, State.reg_setReg_same, BitVec.toNat_setWidth]
      omega
    · apply unchangedBut_intro <;> simp
  · intro hr
    refine ⟨s.setTurns ts, ?_, rfl, ?_⟩
    · rw [step_turn (by simp [State.safe, hr]) hts, takeTurn, keyPressed_not_waiting k (by simp [hr])]
    · apply unchangedBut_intro <;> simp

/-- Settles O18: the change is the step's move, and it is one write of its port. -/
theorem inputChangesTouchOnlyTheirPort : Obligations.InputChangesTouchOnlyTheirPort := by
  intro s ts hs
  constructor
  · intro m hts
    refine ⟨_, step_turn hs hts, rfl, rfl, ?_⟩
    apply unchangedBut_intro <;> simp
  · intro b hts
    refine ⟨_, step_turn hs hts, rfl, rfl, ?_⟩
    apply unchangedBut_intro <;> simp

/-! ### Reset -/

/-- The glyphs stand one after the other, five bytes each (10_state.md R33). -/
theorem initialByte_glyph : ∀ d < 16, ∀ k < 5, initialByte (5 * d + k) = (Config.glyphs.getD d []).getD k 0 := by
  decide

/-- Past the glyphs memory starts as zero (10_state.md R38). -/
theorem initialByte_past_glyphs {a : Nat} (h : 0x50 ≤ a) : initialByte a = 0 := by
  have hlen : Config.glyphRom.length = 0x50 := by decide
  rw [initialByte, List.getElem?_eq_none (hlen ▸ h), Option.getD_none]

/-- The first step on an empty image fetches 0x0000, which is no instruction (D2). -/
theorem step_boot_nil :
    step (boot []) = .next (raise ⟨.unknownInstruction, 0x0000⟩ (State.reset.setPc 0x0202)) := rfl

/-- Settles O60: the fields by definition, memory from its reset content, the last clause by running the step. -/
theorem resetState : Obligations.ResetState := by
  refine ⟨fun r => ?_, rfl, rfl, rfl, rfl, rfl, rfl, pixel_blankScreen, rfl, ?_, ?_, ?_⟩
  · simp [State.reg, State.reset]
  · exact fun d k hd hk => initialByte_glyph d hd k hk
  · exact fun a ha _ => initialByte_past_glyphs ha
  · exact ⟨_, step_boot_nil, rfl, rfl⟩

end Sys2Proof.Machine
end

section
/-! PROOFS. Memory (20_memory.md): the fetch and its bounds, the canonical form, and writes that stay inside memory. -/

namespace Sys2Proof.Machine

/-! ### The fetch -/

/-- Settles O8: the two branches of the fetch; outside memory the fault's info is the larger of PC and 4096. -/
theorem fetchIsBigEndianAndBounded : Obligations.FetchIsBigEndianAndBounded := by
  intro s
  refine ⟨fun hin => ⟨_, fetchWord_in hin, Laws.wordOfBytes_toNat _ _⟩, fun hout => ?_, fun hlast => ?_⟩
  · rw [fetchWord_out (show ¬ s.pc.toNat + 1 < 4096 by omega), accessFault, max_eq_left hout]
  · rw [fetchWord_out (show ¬ s.pc.toNat + 1 < 4096 by omega), accessFault, max_eq_right (hlast.le.trans (by decide))]

/-- Settles O11: the engine's step takes the fault of the fetch, which writes STATUS only. -/
theorem fetchFaultKeepsPc : Obligations.FetchFaultKeepsPc := by
  intro s ts hrun hturns hpc
  have hinfo : max s.pc.toNat 4096 = if s.pc.toNat = 0x0FFF then 0x1000 else s.pc.toNat := by
    split <;> omega
  have hout : ¬ s.pc.toNat + 1 < 4096 := by omega
  refine ⟨_, (step_engine hrun hturns).trans (execStep_out (s := s.setTurns ts) hout), ?_, rfl, ?_⟩
  · rw [raise_status, accessFault, State.setTurns_pc, hinfo]
  · apply unchangedBut_intro <;> simp [raise]

/-! ### The canonical form -/

theorem Memory.wfFrom_cons_iff {lo k : Nat} {b : Byte} {rest : Memory} :
    Memory.wfFrom lo ((k, b) :: rest) = true ↔
      lo ≤ k ∧ k < Config.memSize ∧ b ≠ initialByte k ∧ Memory.wfFrom (k + 1) rest = true := by
  simp [Memory.wfFrom, and_assoc]

theorem Memory.read_head (k : Nat) (b : Byte) (rest : Memory) : Memory.read ((k, b) :: rest) k = b := by
  rw [Memory.read_cons, if_pos rfl]

/-- The first byte listed tells a canonical memory from every one that lists only higher addresses. -/
theorem Memory.read_head_ne {lo lo' k : Nat} {b : Byte} {rest m : Memory}
    (h : Memory.wfFrom lo ((k, b) :: rest) = true) (hm : Memory.wfFrom lo' m = true) (hk : k < lo') :
    Memory.read ((k, b) :: rest) k ≠ Memory.read m k := by
  obtain ⟨-, -, hb, -⟩ := Memory.wfFrom_cons_iff.1 h
  rwa [Memory.read_head, Memory.read_below hm hk]

/-- Canonical memories that read alike list the same first address, the same byte there, and so on down the list. -/
theorem Memory.eq_of_read_eq {lo : Nat} {m m' : Memory} (hm : Memory.wfFrom lo m = true)
    (hm' : Memory.wfFrom lo m' = true)
    (h : ∀ a, a < Config.memSize → Memory.read m a = Memory.read m' a) : m = m' := by
  induction m generalizing lo m' with
  | nil =>
    cases m' with
    | nil => rfl
    | cons e' rest' =>
      obtain ⟨k', b'⟩ := e'
      obtain ⟨-, hk', -, -⟩ := Memory.wfFrom_cons_iff.1 hm'
      exact absurd (h k' hk').symm (Memory.read_head_ne hm' (lo' := k' + 1) rfl (by omega))
  | cons e rest ih =>
    obtain ⟨k, b⟩ := e
    obtain ⟨-, hk, hb, hrest⟩ := Memory.wfFrom_cons_iff.1 hm
    cases m' with
    | nil => exact absurd (h k hk) (Memory.read_head_ne hm (lo' := k + 1) rfl (by omega))
    | cons e' rest' =>
      obtain ⟨k', b'⟩ := e'
      obtain ⟨-, hk', hb', hrest'⟩ := Memory.wfFrom_cons_iff.1 hm'
      obtain hlt | rfl | hgt := Nat.lt_trichotomy k k'
      · have htail : Memory.wfFrom k' ((k', b') :: rest') = true :=
          Memory.wfFrom_cons_iff.2 ⟨le_rfl, hk', hb', hrest'⟩
        exact absurd (h k hk) (Memory.read_head_ne hm htail hlt)
      · have hbyte : b = b' := by simpa only [Memory.read_head] using h k hk
        have htail : rest = rest' := by
          refine ih hrest hrest' fun a ha => ?_
          by_cases hak : a < k + 1
          · rw [Memory.read_below hrest hak, Memory.read_below hrest' hak]
          · have hread := h a ha
            rwa [Memory.read_cons, Memory.read_cons, if_neg (by omega), if_neg (by omega)] at hread
        rw [hbyte, htail]
      · have htail : Memory.wfFrom k ((k, b) :: rest) = true :=
          Memory.wfFrom_cons_iff.2 ⟨le_rfl, hk, hb, hrest⟩
        exact absurd (h k' hk').symm (Memory.read_head_ne hm' htail hgt)

/-- Settles O57: the canonical form determines the list, address by address. -/
theorem memoriesThatReadAlikeAreEqual : Obligations.MemoriesThatReadAlikeAreEqual :=
  fun _ _ => Memory.eq_of_read_eq

/-! ### Writes that stay inside memory -/

/-- The bytes of a store inside memory stand one after the other from its first address. -/
theorem storeSeq_byteAt {a k : Nat} {bs : List Byte} {s : State} (hw : Memory.wf s.mem = true)
    (hin : a + bs.length ≤ Config.memSize) (hk : k < bs.length) :
    (storeSeq a bs s).byteAt (a + k) = bs.getD k 0 := by
  have hwritten : a ≤ a + k ∧ a + k < a + bs.length ∧ a + k < Config.memSize ∧
      allLand (0 + (a + k - a)) = true := ⟨by omega, by omega, by omega, rfl⟩
  rw [storeSeq_in s hin, State.byteAt_setMem, writeSeq_read _ _ _ _ hw, if_pos hwritten, Nat.add_sub_cancel_left]

theorem unchangedBut_storeSeq_in {a : Nat} {bs : List Byte} (s : State) (hin : a + bs.length ≤ Config.memSize) :
    unchangedBut [.memory] s (storeSeq a bs s) := by
  rw [storeSeq_in s hin]
  exact unchangedBut_setMem _ _

/-- A block that fits is written as an instruction writes its bytes. -/
theorem writeBlock_in {offset : Nat} {bytes : List Byte} (s : State) (h : offset + bytes.length ≤ Config.memSize) :
    writeBlock offset bytes s = .ok (storeSeq offset bytes s) := by
  rw [writeBlock, if_pos h, storeSeq_in s h]

theorem writeBlock_out {offset : Nat} {bytes : List Byte} (s : State)
    (h : ¬ offset + bytes.length ≤ Config.memSize) :
    writeBlock offset bytes s = .error ⟨.loadTooLarge, bytes.length⟩ := by
  rw [writeBlock, if_neg h]

/-- Settles O58: a block that fits is one store inside memory, another one is refused before any write. -/
theorem writeBlockIsAllOrNothing : Obligations.WriteBlockIsAllOrNothing := by
  intro offset bytes s hw
  refine ⟨fun hin => ⟨_, writeBlock_in s hin, fun k hk => ?_, sameBytesOutside_storeSeq _ _ hw,
    unchangedBut_storeSeq_in s hin⟩, fun hout => writeBlock_out s hout.not_ge⟩
  rw [storeSeq_byteAt hw hin hk, List.getD_eq_getElem _ _ hk]

/-- A block store inside memory puts each register up to Vx at its own place after I (43_index_memory.md R174). -/
theorem storeSeq_blockRegs_byteAt {x r : RegIx} {s : State} (hw : Memory.wf s.mem = true)
    (hin : s.i.toNat + (x.toNat + 1) ≤ Config.memSize) (hr : r.toNat ≤ x.toNat) :
    (storeSeq s.i.toNat (blockRegs x s) s).byteAt (s.i.toNat + r.toNat) = s.reg r := by
  rw [storeSeq_byteAt hw (by rwa [blockRegs_length]) (by rw [blockRegs_length]; omega), blockRegs_getD x s r hr]

/-- Settles O42: the store leaves PC, and the two bytes the fetch reads there are V0 and V1. -/
theorem storeIsSeenByTheNextFetch : Obligations.StoreIsSeenByTheNextFetch := by
  intro x s hw hx hi hin
  have hpc : (storeSeq s.i.toNat (blockRegs x s) s).pc = s.i :=
    (unchangedBut_storeSeq _ _ s .pc (by simp)).trans hi.symm
  have hhigh : (storeSeq s.i.toNat (blockRegs x s) s).byteAt s.i.toNat = s.reg 0 :=
    storeSeq_blockRegs_byteAt (r := 0) hw hin (Nat.zero_le _)
  have hlow : (storeSeq s.i.toNat (blockRegs x s) s).byteAt (s.i.toNat + 1) = s.reg 1 :=
    storeSeq_blockRegs_byteAt (r := 1) hw hin hx
  have hinside : s.i.toNat + 1 < 4096 := by omega
  refine ⟨storeSeq s.i.toNat (blockRegs x s) s, rfl, ?_⟩
  rw [fetchWord_in (by rwa [hpc]), hpc, hhigh, hlow, hi]

end Sys2Proof.Machine
end

section
/-! PROOFS. The decoder and the encoder (30_encoding.md): each inverts the other, and the words that decode are those of
the rows of the opcode table. -/

namespace Sys2Proof.Laws

/-! ### Decoding an assembled word -/

/-- n of 5xyn is not examined (R88, D3). -/
theorem decode_wordXYN_5 (x y : RegIx) (n : Nibble) : decode (wordXYN 0x5 x y n) = .ok (.seReg x y) := by
  simp [decode]

/-- n of 9xyn is not examined (R88, D3). -/
theorem decode_wordXYN_9 (x y : RegIx) (n : Nibble) : decode (wordXYN 0x9 x y n) = .ok (.sneReg x y) := by
  simp [decode]

/-- The primary dispatch reads the top nibble back, a secondary one the bottom nibble or byte, and the operands are the
other fields. -/
theorem decode_encode (i : Instr) : decode (encode i) = .ok i := by
  cases i with
  | cls | ret => rfl
  | jp | call | ldI | jpV0 => simp [encode, decode]
  | seImm | sneImm | ldImm | addImm | rnd => simp [encode, decode]
  | seReg x y => exact decode_wordXYN_5 x y 0
  | sneReg x y => exact decode_wordXYN_9 x y 0
  | drw => simp [encode, decode]
  | ldReg | or | and | xor | addReg | sub | shr | subn | shl => simp [encode, decode, decodeGroup8]
  | skp | sknp => simp [encode, decode, decodeGroupE]
  | ldVxDt | ldDtVx | ldVxK | addI | ldF | ldB | ldMemVx | ldVxMem => simp [encode, decode, decodeGroupF]

theorem decodeBytes_encodeBytes_append (i : Instr) (rest : List Byte) :
    decodeBytes (encodeBytes i ++ rest) = .ok (i, rest) := by
  change (decode (wordOfBytes (highByte (encode i)) (lowByte (encode i)))).map (fun j => (j, rest)) = _
  rw [wordOfBytes_bytes, decode_encode]
  rfl

/-- Settles O1, case by case over the instructions; the two bytes of a word make the word again. -/
theorem decodeInvertsEncode : Obligations.DecodeInvertsEncode :=
  ⟨decode_encode, decodeBytes_encodeBytes_append⟩

/-! ### Assembling a decoded word -/

section
variable {w : Word} {op : Nibble}

theorem wordA_of_fields (hop : opField w = op) : wordA op (nnnField w) = w := by
  rw [← hop, wordA_fields]

theorem wordXK_of_fields {kk : Byte} (hop : opField w = op) (hkk : kkField w = kk) :
    wordXK op (xField w) kk = w := by
  rw [← hop, ← hkk, wordXK_fields]

theorem wordXYN_of_fields {n : Nibble} (hop : opField w = op) (hn : nField w = n) :
    wordXYN op (xField w) (yField w) n = w := by
  rw [← hop, ← hn, wordXYN_fields]

/-- Clearing the bottom nibble leaves the other three (R90). -/
theorem wordXYN_zero_of_opField (hop : opField w = op) :
    wordXYN op (xField w) (yField w) 0 = w &&& 0xFFF0#16 := by
  have hclear : (w &&& 0xFFF0#16) = wordXYN (opField w) (xField w) (yField w) 0 := by
    apply BitVec.eq_of_getLsbD_eq
    intro j hj
    simp only [wordXYN, opField, xField, yField, BitVec.getLsbD_append, BitVec.getLsbD_and, BitVec.getLsbD_setWidth,
      BitVec.getLsbD_ushiftRight]
    interval_cases j <;> simp
  rw [hclear, hop]
end

variable {w : Word} {i : Instr}

theorem encode_of_decodeGroup0 (h : decodeGroup0 w = .ok i) : encode i = w := by
  unfold decodeGroup0 at h
  split at h
  · cases h; exact Eq.symm ‹_›
  · split at h
    · cases h; exact Eq.symm ‹_›
    · cases h

theorem encode_of_decodeGroup8 (hop : opField w = 0x8) (h : decodeGroup8 w = .ok i) : encode i = w := by
  unfold decodeGroup8 at h
  split at h <;> cases h <;> exact wordXYN_of_fields hop ‹_›

theorem encode_of_decodeGroupE (hop : opField w = 0xE) (h : decodeGroupE w = .ok i) : encode i = w := by
  unfold decodeGroupE at h
  split at h <;> cases h <;> exact wordXK_of_fields hop ‹_›

theorem encode_of_decodeGroupF (hop : opField w = 0xF) (h : decodeGroupF w = .ok i) : encode i = w := by
  unfold decodeGroupF at h
  split at h <;> cases h <;> exact wordXK_of_fields hop ‹_›

/-- Branch by branch of the dispatch: a format's word is assembled from the fields the branch has read. -/
theorem encode_of_decode (h : decode w = .ok i) :
    encode i = if opField w = 0x5 ∨ opField w = 0x9 then w &&& 0xFFF0#16 else w := by
  unfold decode at h
  split at h
  case h_1 hop => simpa [hop] using encode_of_decodeGroup0 h
  case h_2 hop | h_3 hop | h_11 hop | h_12 hop => cases h; simpa [encode, hop] using wordA_of_fields hop
  case h_4 hop | h_5 hop | h_7 hop | h_8 hop | h_13 hop => cases h; simpa [encode, hop] using wordXK_of_fields hop rfl
  case h_6 hop | h_10 hop => cases h; simpa [encode, hop] using wordXYN_zero_of_opField hop
  case h_9 hop => simpa [hop] using encode_of_decodeGroup8 hop h
  case h_14 hop => cases h; simpa [encode, hop] using wordXYN_of_fields hop rfl
  case h_15 hop => simpa [hop] using encode_of_decodeGroupE hop h
  case h_16 hop => simpa [hop] using encode_of_decodeGroupF hop h
  case h_17 => cases h

/-- Settles O2, by the dispatch that read the word. -/
theorem encodeInvertsDecode : Obligations.EncodeInvertsDecode :=
  fun _ _ => encode_of_decode

/-! ### The rows of the opcode table -/

/-- The word meets the row of the instruction: under the row's mask it is the row's match value (R86). -/
def MeetsRow (w : Word) (j : Instr) : Prop := w &&& (tableRow j).2 = (tableRow j).1

open EncodingRow in
/-- The instructions' own statements, put together. -/
theorem meetsRow_encode (i : Instr) : MeetsRow (encode i) i := by
  cases i
  exacts [cls, ret, jp _, call _, seImm _ _, sneImm _ _, seReg _ _, ldImm _ _, addImm _ _, ldReg _ _,
    EncodingRow.or _ _, EncodingRow.and _ _, EncodingRow.xor _ _, addReg _ _, sub _ _, shr _ _, subn _ _, shl _ _,
    sneReg _ _, ldI _, jpV0 _, rnd _ _, drw _ _ _, skp _, sknp _, ldVxDt _, ldDtVx _, ldVxK _, addI _, ldF _, ldB _,
    ldMemVx _, ldVxMem _]

/-- A word that decodes is the word of its instruction, which meets the row, or one of 5xyn and 9xyn, whose rows hold
the top nibble only. -/
theorem meetsRow_of_decode (h : decode w = .ok i) : MeetsRow w i := by
  by_cases h5 : opField w = 0x5
  · obtain rfl : .seReg (xField w) (yField w) = i := by simpa [decode, h5] using h
    exact (and_F000_iff w 0x5).2 h5
  by_cases h9 : opField w = 0x9
  · obtain rfl : .sneReg (xField w) (yField w) = i := by simpa [decode, h9] using h
    exact (and_F000_iff w 0x9).2 h9
  have hword : encode i = w := by rw [encode_of_decode h, if_neg (not_or.2 ⟨h5, h9⟩)]
  exact hword ▸ meetsRow_encode i

section
variable {v : Word}

theorem opField_eq_of_and_F000 (h : w &&& 0xF000#16 = v &&& 0xF000#16) : opField w = opField v :=
  (and_F000_iff w _).1 (h.trans ((and_F000_iff v _).2 rfl))

theorem fields_eq_of_and_F00F (h : w &&& 0xF00F#16 = v &&& 0xF00F#16) :
    opField w = opField v ∧ nField w = nField v :=
  (and_F00F_iff w _ _).1 (h.trans ((and_F00F_iff v _ _).2 ⟨rfl, rfl⟩))

theorem fields_eq_of_and_F0FF (h : w &&& 0xF0FF#16 = v &&& 0xF0FF#16) :
    opField w = opField v ∧ kkField w = kkField v :=
  (and_F0FF_iff w _ _).1 (h.trans ((and_F0FF_iff v _ _).2 ⟨rfl, rfl⟩))
end

/-- A word that meets a row has, in the fields the decoder dispatches on, what the row's assembled words have. -/
theorem exists_decode_of_meetsRow {j : Instr} (h : MeetsRow w j) :
    ∃ i, decode w = .ok i ∧ tableRow i = tableRow j := by
  have hmask : w &&& (tableRow j).2 = encode j &&& (tableRow j).2 := h.trans (meetsRow_encode j).symm
  cases j with
  | cls | ret =>
    obtain rfl := (BitVec.and_allOnes (x := w)).symm.trans hmask
    exact ⟨_, rfl, rfl⟩
  | jp | call | seImm | sneImm | seReg | ldImm | addImm | sneReg | ldI | jpV0 | rnd | drw =>
    have hop := opField_eq_of_and_F000 hmask
    simp only [encode, opField_wordA, opField_wordXK, opField_wordXYN] at hop
    simp [decode, hop, tableRow]
  | ldReg | or | and | xor | addReg | sub | shr | subn | shl =>
    obtain ⟨hop, hn⟩ := fields_eq_of_and_F00F hmask
    simp only [encode, opField_wordXYN, nField_wordXYN] at hop hn
    simp [decode, decodeGroup8, hop, hn, tableRow]
  | skp | sknp =>
    obtain ⟨hop, hkk⟩ := fields_eq_of_and_F0FF hmask
    simp only [encode, opField_wordXK, kkField_wordXK] at hop hkk
    simp [decode, decodeGroupE, hop, hkk, tableRow]
  | ldVxDt | ldDtVx | ldVxK | addI | ldF | ldB | ldMemVx | ldVxMem =>
    obtain ⟨hop, hkk⟩ := fields_eq_of_and_F0FF hmask
    simp only [encode, opField_wordXK, kkField_wordXK] at hop hkk
    simp [decode, decodeGroupF, hop, hkk, tableRow]

/-- Settles O4. Two rows one word meets are both the row of the instruction it decodes to. -/
theorem opcodeTableRowsAreDisjointAndComplete : Obligations.OpcodeTableRowsAreDisjointAndComplete :=
  fun _ => ⟨fun _ => meetsRow_of_decode, fun _ => exists_decode_of_meetsRow⟩

/-! ### The words that do not decode -/

/-- The word is in a row of the table of unknown words (R87); group 0 goes by the whole word (D2), Fx18 is one (D4). -/
def Unlisted (w : Word) : Prop :=
  opField w = 0x0 ∧ w ≠ 0x00E0 ∧ w ≠ 0x00EE ∨
    opField w = 0x8 ∧ nField w ∈ [0x8, 0x9, 0xA, 0xB, 0xC, 0xD, (0xF : Nibble)] ∨
    opField w = 0xE ∧ kkField w ∉ [0x9E, (0xA1 : Byte)] ∨
    opField w = 0xF ∧ kkField w ∉ [0x07, 0x0A, 0x15, 0x1E, 0x29, 0x33, 0x55, (0x65 : Byte)]

/-- What the decoder answers for `w`: the error that holds the word if it is unknown, an instruction if not (R85). -/
def Answers (unknown : Prop) (w : Word) (r : Except DecodeError Instr) : Prop :=
  (unknown ∧ r = .error (.unknownInstruction w)) ∨ (¬ unknown ∧ ∃ i, r = .ok i)

theorem decodeGroup0_answers (w : Word) : Answers (w ≠ 0x00E0 ∧ w ≠ 0x00EE) w (decodeGroup0 w) := by
  unfold decodeGroup0
  split
  · exact .inr ⟨fun h => h.1 ‹_›, _, rfl⟩
  · split
    · exact .inr ⟨fun h => h.2 ‹_›, _, rfl⟩
    · exact .inl ⟨⟨‹_›, ‹_›⟩, rfl⟩

theorem decodeGroup8_answers (w : Word) :
    Answers (nField w ∈ [0x8, 0x9, 0xA, 0xB, 0xC, 0xD, (0xF : Nibble)]) w (decodeGroup8 w) := by
  unfold decodeGroup8
  split
  case h_10 =>
    refine .inl ⟨?_, rfl⟩
    generalize nField w = n at *
    decide +revert
  all_goals exact .inr ⟨by simp [*], _, rfl⟩

theorem decodeGroupE_answers (w : Word) : Answers (kkField w ∉ [0x9E, (0xA1 : Byte)]) w (decodeGroupE w) := by
  unfold decodeGroupE
  split
  case h_3 h9E hA1 => exact .inl ⟨by simpa using ⟨h9E, hA1⟩, rfl⟩
  all_goals exact .inr ⟨by simp [*], _, rfl⟩

theorem decodeGroupF_answers (w : Word) :
    Answers (kkField w ∉ [0x07, 0x0A, 0x15, 0x1E, 0x29, 0x33, 0x55, (0x65 : Byte)]) w (decodeGroupF w) := by
  unfold decodeGroupF
  split
  case h_9 h07 h0A h15 h1E h29 h33 h55 h65 =>
    exact .inl ⟨by simpa using ⟨h07, h0A, h15, h1E, h29, h33, h55, h65⟩, rfl⟩
  all_goals exact .inr ⟨by simp [*], _, rfl⟩

/-- In groups 0, 8, E and F the group decides; every other top nibble is an operation's. -/
theorem decode_answers (w : Word) : Answers (Unlisted w) w (decode w) := by
  unfold decode
  split
  case h_1 hop => simpa [Unlisted, hop] using decodeGroup0_answers w
  case h_9 hop => simpa [Unlisted, hop] using decodeGroup8_answers w
  case h_15 hop => simpa [Unlisted, hop] using decodeGroupE_answers w
  case h_16 hop => simpa [Unlisted, hop] using decodeGroupF_answers w
  case h_17 =>
    exfalso
    generalize opField w = op at *
    revert op
    decide
  case h_2 hop | h_3 hop | h_4 hop | h_5 hop | h_6 hop | h_7 hop | h_8 hop | h_10 hop | h_11 hop | h_12 hop | h_13 hop
      | h_14 hop =>
    exact .inr ⟨by simp [Unlisted, hop], _, rfl⟩

/-- Settles O3: a word is unknown by its group's secondary dispatch, or not at all. -/
theorem unknownWordsAreThoseOfTheTable : Obligations.UnknownWordsAreThoseOfTheTable :=
  decode_answers

/-! ### Words written out, and ignored bits -/

/-- Settles O5: all but the two unknown words are assembled words, 0x512F and 0x947C with another n than the
assembler's. -/
theorem decodeReadsWordsOfTheTable : Obligations.DecodeReadsWordsOfTheTable :=
  ⟨decode_encode .cls, decode_encode .ret, decode_encode (.jp 0x234), decode_encode (.call 0x345),
    decode_encode (.seImm 0x7 0x42), decode_encode (.sneImm 0x3 0x42), decode_wordXYN_5 0x1 0x2 0xF,
    decode_encode (.ldImm 0xA 0x2F), decode_encode (.addImm 0x1 0xFE), decode_encode (.addReg 0x1 0x2),
    decode_wordXYN_9 0x4 0x7 0xC, decode_encode (.ldI 0x123), decode_encode (.jpV0 0x304),
    decode_encode (.rnd 0x3 0x0F), decode_encode (.drw 0x1 0x2 0xF), decode_encode (.skp 0x5),
    decode_encode (.ldVxK 0x2), decode_encode (.ldVxMem 0x2), rfl, rfl⟩

/-- Settles O6: SHR and SHL name Vy in their encoding only (D5). -/
theorem ignoredBitsDoNotMatter : Obligations.IgnoredBitsDoNotMatter :=
  ⟨fun x y n => ⟨decode_wordXYN_5 x y n, decode_wordXYN_9 x y n⟩, fun _ _ _ _ => ⟨rfl, rfl⟩⟩

end Sys2Proof.Laws
end

section
/-! PROOFS. The execution loop (40_execution_loop.md): the engine's step and what it runs, the wait for a key under any
moves without a press and under fair schedules, and the PARKED state. -/

namespace Sys2Proof.Machine

/-! ### The engine's step -/

theorem executeWord_of_ok {w : Word} {i : Instr} (h : decode w = .ok i) (s : State) : executeWord w s = exec i s := by
  simp only [executeWord, h]

theorem executeWord_of_error {w : Word} {e : DecodeError} (h : decode w = .error e) (s : State) :
    executeWord w s = .next (raise ⟨.unknownInstruction, w.toNat⟩ s) := by
  simp only [executeWord, h]

theorem executeWord_of_unknown {w : Word} (h : ∀ i, decode w ≠ .ok i) (s : State) :
    executeWord w s = .next (raise ⟨.unknownInstruction, w.toNat⟩ s) := by
  cases hd : decode w with
  | ok i => exact absurd hd (h i)
  | error e => exact executeWord_of_error hd s

theorem execStep_of_fetch_ok {s : State} {w next : Word} (h : fetchWord s = .ok (w, next)) :
    execStep s = executeWord w (s.setPc next) := by
  simp only [execStep, h]

theorem execStep_of_fetch_error {s : State} {c : FaultCause} (h : fetchWord s = .error c) :
    execStep s = .next (raise c s) := by
  simp only [execStep, h]

/-- Settles O7: idle outside RUN; in RUN the branches of the fetch and of the decoder, each by its equation. -/
theorem execStepFetchesDecodesExecutes : Obligations.ExecStepFetchesDecodesExecutes := by
  intro s
  refine ⟨engineMove_idle, fun hrun c hfetch => ?_, fun hrun w next hfetch => ⟨?_, fun i hi => ?_, fun e he => ?_⟩⟩
  · rw [engineMove_run hrun, execStep_of_fetch_error hfetch]
  · exact (Prod.ext_iff.1 (fetchWord_ok hfetch).2).2
  · rw [engineMove_run hrun, execStep_of_fetch_ok hfetch, executeWord_of_ok hi]
  · rw [engineMove_run hrun, execStep_of_fetch_ok hfetch, executeWord_of_error he]

/-- The step of an engine that is to move in RUN executes the word at PC, in the state with PC past it. -/
theorem step_executes_word {s : State} {ts : List Turn} (hrun : s.status = .run)
    (hturns : s.turns = [] ∧ ts = [] ∨ s.turns = .engine :: ts) (hpc : s.pc.toNat + 1 < Config.memSize) :
    step s = executeWord (wordOfBytes (s.byteAt s.pc.toNat) (s.byteAt (s.pc.toNat + 1)))
      ((s.setTurns ts).setPc (s.pc + 2)) :=
  (step_engine hrun hturns).trans (execStep_in (s := s.setTurns ts) hpc)

/-- Settles O9: the word at PC is executed, and it decodes to the instruction. -/
theorem stepRunsTheDecodedInstruction : Obligations.StepRunsTheDecodedInstruction := by
  intro s ts i hrun hturns hpc hi
  rw [step_executes_word hrun hturns hpc, executeWord_of_ok hi]

/-- Settles O10: the word at PC is executed, and executing an unknown word raises its fault, where the run stops. -/
theorem unknownWordIsFatal : Obligations.UnknownWordIsFatal := by
  rintro s ts w hrun hturns hpc rfl hunknown
  refine ⟨_, (step_executes_word hrun hturns hpc).trans (executeWord_of_unknown hunknown _), rfl, rfl, rfl, ?_,
    step_of_fault rfl⟩
  apply unchangedBut_intro <;> simp [raise]

/-- Settles O13: every agent's move answers a next state, and only FAULT keeps the agents from moving. -/
theorem stepStopsExactlyInFault : Obligations.StepStopsExactlyInFault :=
  fun _ => ⟨step_next_of_safe, fun _ => step_of_fault⟩

/-- Settles O27: by the condition, for PC and for the frame. -/
theorem skipMovesThePcOnly : Obligations.SkipMovesThePcOnly := by
  refine fun c s => ⟨?_, unchangedBut_skip c s⟩
  cases c
  · rfl
  · exact BitVec.toNat_add s.pc 2

/-! ### The wait for a key -/

/-- The timers are `n` down-counts on, and nothing else has changed but the input ports and the moves to come
(60_exceptions.md R240). -/
structure TimersRan (n : Nat) (s t : State) : Prop where
  dt : t.dt.toNat = s.dt.toNat - n
  st : t.st.toNat = s.st.toNat - n
  frame : unchangedBut [.delay, .sound, .keys, .random, .turns] s t

theorem TimersRan.trans {m n : Nat} {s t u : State} (h : TimersRan m s t) (h' : TimersRan n t u) :
    TimersRan (m + n) s u where
  dt := by rw [h'.dt, h.dt, Nat.sub_sub]
  st := by rw [h'.st, h.st, Nat.sub_sub]
  frame := unchangedBut_trans h.frame h'.frame

theorem TimersRan.status {n : Nat} {s t : State} (h : TimersRan n s t) : t.status = s.status :=
  h.frame .status (by simp)

theorem timersRan_setTurns (s : State) (ts : List Turn) : TimersRan 0 s (s.setTurns ts) :=
  ⟨rfl, rfl, by apply unchangedBut_intro <;> simp⟩

theorem timersRan_timerTick (s : State) : TimersRan 1 s (timerTick s) :=
  ⟨countDown_toNat s.dt, countDown_toNat s.st, by apply unchangedBut_intro <;> simp [timerTick]⟩

/-- During a wait a move that is no key press leaves the wait on: a tick counts the timers down, the engine's move is
idle, and the host's moves change their port (40_execution_loop.md R108). -/
theorem takeTurn_waiting {m : Turn} (hm : ∀ k, m ≠ .keyPress k) {s : State} {x : RegIx} (hs : s.status = .waitKey x) :
    ∃ t, takeTurn m s = .next t ∧ t.turns = s.turns ∧ TimersRan ([m].count .tick) s t := by
  cases m with
  | keyPress k => exact absurd rfl (hm k)
  | engine => exact ⟨s, engineMove_idle (by simp [hs]), rfl, rfl, rfl, unchangedBut_refl _ _⟩
  | tick => exact ⟨_, rfl, rfl, timersRan_timerTick s⟩
  | setKeys d => exact ⟨_, rfl, rfl, rfl, rfl, by apply unchangedBut_intro <;> simp⟩
  | presentRandom b => exact ⟨_, rfl, rfl, rfl, rfl, by apply unchangedBut_intro <;> simp⟩

/-- A run of moves without a key press during a wait: the timers run, once a tick. -/
theorem runTurns_waiting {ts : List Turn} (hts : ∀ k, Turn.keyPress k ∉ ts) {s : State} {x : RegIx}
    (hs : s.status = .waitKey x) : ∃ t, runTurns ts s = .next t ∧ TimersRan (ts.count .tick) s t := by
  induction ts generalizing s with
  | nil => exact ⟨_, rfl, timersRan_setTurns s []⟩
  | cons m ts ih =>
    have hm : ∀ k, m ≠ .keyPress k := fun k hk => hts k (by simp [hk])
    obtain ⟨u, hmove, hturns, hran⟩ := takeTurn_waiting hm (s := s.setTurns ts) hs
    obtain ⟨t, hrest, hran'⟩ := ih (fun k hk => hts k (by simp [hk])) (hran.status.trans hs)
    refine ⟨t, (runTurns_cons (by simp [State.safe, hs]) hmove hturns).trans hrest, ?_⟩
    have hcount : 0 + [m].count .tick + ts.count .tick = (m :: ts).count .tick := by
      rw [Nat.zero_add, ← List.count_append]; rfl
    exact hcount ▸ ((timersRan_setTurns s ts).trans hran).trans hran'

/-- Settles O16: by induction over the moves, none of which ends the wait. -/
theorem waitingEngineExecutesNothing : Obligations.WaitingEngineExecutesNothing := by
  intro ts s x hs hts
  obtain ⟨t, hrun, hran⟩ := runTurns_waiting hts hs
  exact ⟨t, hrun, hran.status.trans hs, hran.dt, hran.st, hran.frame⟩

/-! ### Fair schedules -/

theorem firstTurns_succ (sch : Schedule) (n : Nat) : firstTurns sch (n + 1) = firstTurns sch n ++ [sch n] := by
  simp [firstTurns, List.range_succ]

theorem count_firstTurns_mono (sch : Schedule) (t : Turn) : Monotone fun n => (firstTurns sch n).count t :=
  monotone_nat_of_le_succ fun n => by simp [firstTurns_succ]

/-- A move that keeps coming comes any number of times. -/
theorem exists_le_count_firstTurns {sch : Schedule} {t : Turn} (h : ∀ n, ∃ m, n ≤ m ∧ sch m = t) (k : Nat) :
    ∃ n, k ≤ (firstTurns sch n).count t := by
  induction k with
  | zero => exact ⟨0, Nat.zero_le _⟩
  | succ k ih =>
    obtain ⟨n, hn⟩ := ih
    obtain ⟨m, hnm, hm⟩ := h n
    have hmono : (firstTurns sch n).count t ≤ (firstTurns sch m).count t := count_firstTurns_mono sch t hnm
    refine ⟨m + 1, ?_⟩
    rw [firstTurns_succ, List.count_append, hm, List.count_singleton_self]
    omega

/-- Settles O17: a fair schedule ticks at least as often as DT counts, and from then on DT is 0. -/
theorem fairSchedulesDrainTheDelayTimer : Obligations.FairSchedulesDrainTheDelayTimer := by
  intro sch s x hfair hnopress hs
  obtain ⟨-, hticks⟩ := hfair
  obtain ⟨n, hn⟩ := exists_le_count_firstTurns hticks s.dt.toNat
  refine ⟨n, fun m hnm => ?_⟩
  have henough : s.dt.toNat ≤ (firstTurns sch m).count .tick := hn.trans (count_firstTurns_mono sch .tick hnm)
  obtain ⟨t, hrun, hran⟩ := runTurns_waiting (ts := firstTurns sch m) (by simp [firstTurns, hnopress]) hs
  refine ⟨t, hrun, BitVec.eq_of_toNat_eq ?_, hran.status.trans hs⟩
  rw [hran.dt, Nat.sub_eq_zero_of_le henough]; rfl

/-! ### PARKED -/

/-- The word of R110, "a JP to its own address", is the assembled JP. -/
theorem encode_jp_eq_or (nnn : BitVec 12) : encode (.jp nnn) = 0x1000#16 ||| addrOperand nnn := by
  apply BitVec.eq_of_getLsbD_eq
  intro j hj
  simp only [encode, wordA, addrOperand, BitVec.getLsbD_append, BitVec.getLsbD_or, BitVec.getLsbD_setWidth]
  interval_cases j <;> simp

theorem addrOperand_setWidth {a : Word} (h : a.toNat < 4096) : addrOperand (a.setWidth 12) = a := by
  apply BitVec.eq_of_toNat_eq
  rw [addrOperand_toNat, BitVec.toNat_setWidth, Nat.mod_eq_of_lt h]

theorem step_of_parked {s : State} (hs : s.parked) (ht : s.turns = []) : step s = .next s := by
  obtain ⟨hrun, hpc, hword⟩ := hs
  have htarget : addrOperand (s.pc.setWidth 12) = s.pc := addrOperand_setWidth (by omega)
  have hself : 0x1000#16 ||| s.pc = encode (.jp (s.pc.setWidth 12)) := by rw [encode_jp_eq_or, htarget]
  have hjp : decode (wordOfBytes (s.byteAt s.pc.toNat) (s.byteAt (s.pc.toNat + 1))) = .ok (.jp (s.pc.setWidth 12)) := by
    rw [hword, hself, Laws.decode_encode]
  have hback : ((s.setTurns s.turns).setPc (s.pc + 2)).setPc s.pc = s := rfl
  rw [stepRunsTheDecodedInstruction s [] _ hrun (.inl ⟨ht, rfl⟩) (by omega) hjp, exec, execJp, htarget, ← ht, hback]

/-- A state that steps to itself stays, however often the machine steps. -/
theorem run_of_step_self {s : State} (h : step s = .next s) (n : Nat) : Host.Core.run Sys2Proof.core n s = .next s := by
  have hcore : Sys2Proof.core.step s = .next s := h
  induction n with
  | zero => rfl
  | succ n ih => simp only [Host.Core.run, hcore, ih]

/-- Settles O19: the engine's step jumps back to where it fetched, so the state steps to itself. -/
theorem parkedStatesStayAsTheyAre : Obligations.ParkedStatesStayAsTheyAre :=
  fun n _ hs ht => run_of_step_self (step_of_parked hs ht) n

end Sys2Proof.Machine
end

section
/-! PROOFS. Control flow (41_control_flow.md): CALL and RET on either side of the stack's bounds, nests of calls, the jumps
and the comparing skips. -/

namespace Sys2Proof.Machine

/-! ### One CALL and one RET -/

/-- Settles O21: CALL writes slot SP, SP and PC, and of the slots the write reaches only that one. -/
theorem callPushesTheReturnAddress : Obligations.CallPushesTheReturnAddress := by
  intro nnn s hroom
  have hslots (k : Nat) : (s.setSlot s.sp s.pc).slot k = if k = s.sp then s.pc else s.slot k :=
    State.slot_setSlot s s.pc k hroom
  refine ⟨_, exec_call_room nnn hroom, addrOperand_toNat nnn, rfl, ?_, fun k hk => ?_, ?_⟩
  · exact (hslots s.sp).trans (if_pos rfl)
  · exact (hslots k).trans (if_neg hk)
  · apply unchangedBut_intro <;> simp

/-- Settles O22: CALL finds no free slot and raises the fault. -/
theorem callOnAFullStackFaults : Obligations.CallOnAFullStackFaults :=
  fun nnn _ hfull => ⟨_, exec_call_full nnn hfull.not_lt, rfl, unchangedBut_raise _ _⟩

/-- Settles O23: RET writes SP and PC, and no slot. -/
theorem retReturnsToThePoppedAddress : Obligations.RetReturnsToThePoppedAddress := by
  intro s hlive _
  have htop : s.sp = (s.sp - 1) + 1 := by omega
  refine ⟨_, exec_ret_top htop, rfl, rfl, fun _ => rfl, ?_⟩
  apply unchangedBut_intro <;> simp

/-- Settles O24: RET finds no valid slot and raises the fault. -/
theorem retOnAnEmptyStackFaults : Obligations.RetOnAnEmptyStackFaults :=
  fun _ hempty => ⟨_, exec_ret_empty hempty, rfl, unchangedBut_raise _ _⟩

/-! ### Nests of calls -/

/-- A part that came back to its value leaves the list of a frame. -/
theorem unchangedBut_of_cons {p : Part} {ps : List Part} {s t : State} (h : unchangedBut (p :: ps) s t)
    (hp : p.same s t) : unchangedBut ps s t := by
  intro q hq
  by_cases hqp : q = p
  · exact hqp ▸ hp
  · exact h q (List.not_mem_cons_of_ne_of_not_mem hqp hq)

theorem execAll_cons {i : Instr} {s u : State} (h : exec i s = .next u) (is : List Instr) :
    execAll (i :: is) s = execAll is u := by
  rw [execAll, h]

/-- A nest of calls and as many returns is the first call, the nest of the others, and the last return. -/
theorem nest_cons (c : BitVec 12) (cs : List (BitVec 12)) :
    (c :: cs).map Instr.call ++ List.replicate (c :: cs).length .ret =
      .call c :: ((cs.map Instr.call ++ List.replicate cs.length .ret) ++ [.ret]) := by
  rw [List.map_cons, List.length_cons, List.replicate_succ', List.cons_append, List.append_assoc]

/-- Settles O25: by induction over the nest. The calls inside return with the slot of the first call's return address
still live, so the last return pops it. -/
theorem nestedCallsReturn : Obligations.NestedCallsReturn := by
  intro targets
  induction targets with
  | nil => exact fun s _ => ⟨s, rfl, rfl, rfl, fun _ _ => rfl, unchangedBut_refl _ _⟩
  | cons c cs ih =>
    intro s hfits
    rw [List.length_cons] at hfits
    obtain ⟨u, hcall, -, hsp, htop, hbelow, hframe⟩ := callPushesTheReturnAddress c s (by omega)
    obtain ⟨v, hnest, -, hsp', hlive', hframe'⟩ := ih u (by omega)
    obtain ⟨t, hret, hpc'', hsp'', hslots'', hframe''⟩ := retReturnsToThePoppedAddress v (by omega) (by omega)
    have hrun : execAll ((c :: cs).map Instr.call ++ List.replicate (c :: cs).length .ret) s = .next t := by
      rw [nest_cons, execAll_cons hcall, execAll_append _ _ hnest, execAll_cons hret, execAll]
    have hdepth : v.sp - 1 = s.sp := by omega
    have hpc : t.pc = s.pc :=
      calc t.pc = v.slot s.sp := by rw [hpc'', hdepth]
        _ = u.slot s.sp := hlive' _ (by omega)
        _ = s.pc := htop
    have hlive (k : Nat) (hk : k < s.sp) : t.slot k = s.slot k :=
      calc t.slot k = v.slot k := hslots'' k
        _ = u.slot k := hlive' k (by omega)
        _ = s.slot k := hbelow k hk.ne
    have hparts : unchangedBut [.pc, .stack] s t :=
      unchangedBut_trans hframe (unchangedBut_trans (unchangedBut_mono hframe' (by simp)) hframe'')
    exact ⟨t, hrun, hpc, hsp''.trans hdepth, hlive, unchangedBut_of_cons hparts hpc⟩

/-! ### Jumps and comparing skips -/

/-- Settles O26: both jumps write PC only, and neither target wraps. -/
theorem jumpsSetThePc : Obligations.JumpsSetThePc :=
  fun nnn s => ⟨⟨_, rfl, addrOperand_toNat nnn, unchangedBut_setPc _ _⟩,
    ⟨_, rfl, offsetTarget_toNat nnn (s.reg 0), unchangedBut_setPc _ _⟩⟩

theorem skip_beq_pc (a b : Byte) (s : State) : (skip (a == b) s).pc = if a = b then s.pc + 2 else s.pc := by
  simp only [skip_pc, beq_iff_eq]

theorem skip_bne_pc (a b : Byte) (s : State) : (skip (a != b) s).pc = if a = b then s.pc else s.pc + 2 := by
  simp only [skip_pc, bne_iff_ne, ite_not]

/-- Settles O28: each of the four is a skip on `==` or on `!=` of its operands. -/
theorem comparingSkips : Obligations.ComparingSkips :=
  fun _ _ _ _ => ⟨⟨_, rfl, skip_beq_pc _ _ _, unchangedBut_skip _ _⟩, ⟨_, rfl, skip_bne_pc _ _ _, unchangedBut_skip _ _⟩,
    ⟨_, rfl, skip_beq_pc _ _ _, unchangedBut_skip _ _⟩, ⟨_, rfl, skip_bne_pc _ _ _, unchangedBut_skip _ _⟩⟩

end Sys2Proof.Machine
end

section
/-! PROOFS. Registers and the ALU (42_alu.md): the instructions that write Vx only, those that write VF before it, and the
random byte. -/

namespace Sys2Proof.Machine

/-! ### Writes of Vx alone -/

/-- An instruction that ends in a write of Vx leaves the result there and writes nothing else. `P` is what is asked of the
result. -/
theorem next_setReg {x : RegIx} {result : Byte} {P : Byte → Prop} (s : State) (hresult : P result) :
    ∃ t, (.next (s.setReg x result) : Host.Outcome State Fault Refusal) = .next t ∧
      P (t.reg x) ∧ sameRegsBut [x] s t ∧ unchangedBut [.regs] s t := by
  refine ⟨_, rfl, ?_, sameRegsBut_setReg _ _ _, unchangedBut_setReg _ _ _⟩
  rwa [State.reg_setReg_same]

/-- Settles O30: each is one write of Vx; ADD wraps as `BitVec` addition does. -/
theorem loadsAndAddImmediate : Obligations.LoadsAndAddImmediate :=
  fun _ _ _ s => ⟨next_setReg (P := (· = _)) s rfl, next_setReg (P := (·.toNat = _)) s (BitVec.toNat_add _ _),
    next_setReg (P := (· = _)) s rfl⟩

/-- Settles O31: each is one write of Vx, of a value known bit by bit. -/
theorem logicOperations : Obligations.LogicOperations :=
  fun x y s => ⟨
    next_setReg (P := fun b => ∀ j, b.getLsbD j = ((s.reg x).getLsbD j || (s.reg y).getLsbD j)) s
      fun _ => BitVec.getLsbD_or,
    next_setReg (P := fun b => ∀ j, b.getLsbD j = ((s.reg x).getLsbD j && (s.reg y).getLsbD j)) s
      fun _ => BitVec.getLsbD_and,
    next_setReg (P := fun b => ∀ j, b.getLsbD j = ((s.reg x).getLsbD j ^^ (s.reg y).getLsbD j)) s
      fun _ => BitVec.getLsbD_xor⟩

/-! ### Writes of VF and Vx -/

theorem flagByte_decide (p : Prop) [Decidable p] : flagByte (decide p) = if p then 1 else 0 := by
  simp only [flagByte, decide_eq_true_eq]

theorem flagByte_toNat (c : Bool) : (flagByte c).toNat = c.toNat := by
  cases c <;> rfl

theorem carryFlag_eq (a b : Byte) : carryFlag a b = if 255 < a.toNat + b.toNat then 1 else 0 :=
  flagByte_decide _

theorem noBorrowFlag_eq (a b : Byte) : noBorrowFlag a b = if b.toNat ≤ a.toNat then 1 else 0 :=
  flagByte_decide _

theorem lowBitFlag_toNat (a : Byte) : (lowBitFlag a).toNat = a.toNat % 2 := by
  rw [lowBitFlag, flagByte_toNat, BitVec.getLsbD, Nat.toNat_testBit, pow_zero, Nat.div_one]

theorem highBitFlag_toNat (a : Byte) : (highBitFlag a).toNat = a.toNat / 128 := by
  have ha := a.isLt
  rw [highBitFlag, flagByte_toNat, BitVec.getLsbD, Nat.toNat_testBit]
  omega

theorem shiftRight_one_toNat (a : Byte) : (a >>> 1).toNat = a.toNat / 2 := by
  rw [BitVec.toNat_ushiftRight, Nat.shiftRight_one]

theorem shiftLeft_one_toNat (a : Byte) : (a <<< 1).toNat = 2 * a.toNat % 256 := by
  rw [BitVec.toNat_shiftLeft, Nat.shiftLeft_eq, pow_one, Nat.mul_comm]

/-- An instruction that ends in the write of VF and then Vx leaves the result in Vx and, when x is not F, the flag in VF,
and writes nothing else (42_alu.md R141). `n` is the result as a number, `P` what is asked of the flag. -/
theorem next_setFlagThenReg {x : RegIx} {result flag : Byte} {n : Nat} {P : Byte → Prop} (s : State)
    (hresult : result.toNat = n) (hflag : P flag) :
    ∃ t, (.next (setFlagThenReg x result flag s) : Host.Outcome State Fault Refusal) = .next t ∧
      (t.reg x).toNat = n ∧ (x ≠ 0xF → P (t.reg 0xF)) ∧ sameRegsBut [x, 0xF] s t ∧ unchangedBut [.regs] s t := by
  refine ⟨_, rfl, ?_, fun hx => ?_, sameRegsBut_setFlagThenReg _ _ _ _, unchangedBut_setFlagThenReg _ _ _ _⟩
  · rwa [setFlagThenReg_same]
  · rwa [setFlagThenReg_flag _ _ _ hx]

/-- Settles O32: each writes VF and then Vx, with the carry or the absent borrow of the values before. -/
theorem addAndSubtractWithFlag : Obligations.AddAndSubtractWithFlag :=
  fun _ _ s => ⟨next_setFlagThenReg (P := (· = _)) s (BitVec.toNat_add _ _) (carryFlag_eq _ _),
    next_setFlagThenReg (P := (· = _)) s (sub_toNat _ _) (noBorrowFlag_eq _ _),
    next_setFlagThenReg (P := (· = _)) s (sub_toNat _ _) (noBorrowFlag_eq _ _)⟩

/-- Settles O33: each writes VF and then Vx, with the end bit of Vx before as the flag. -/
theorem shiftsByOne : Obligations.ShiftsByOne :=
  fun _ _ s => ⟨next_setFlagThenReg (P := (·.toNat = _)) s (shiftRight_one_toNat _) (lowBitFlag_toNat _),
    next_setFlagThenReg (P := (·.toNat = _)) s (shiftLeft_one_toNat _) (highBitFlag_toNat _)⟩

/-! ### The random byte -/

theorem exec_rnd_presented (x : RegIx) (kk : Byte) {s : State} {b : Byte} {rest : List Byte} (h : s.rng = b :: rest) :
    exec (.rnd x kk) s = .next ((s.setRng rest).setReg x (b &&& kk)) := by
  simp only [exec, execRnd, randomByte_presented h]

theorem exec_rnd_free (x : RegIx) (kk : Byte) {s : State} (h : s.rng = []) :
    exec (.rnd x kk) s = .next (s.nextDraw.setReg x (Config.randomByte s.draws &&& kk)) := by
  simp only [exec, execRnd, randomByte_free h]

/-- Settles O34: the two branches of the draw; a byte masked by 0 is 0 in both. -/
theorem randomByteIsMasked : Obligations.RandomByteIsMasked := by
  intro x kk s
  refine ⟨fun b rest hrng => ?_, fun hrng => ?_, ?_⟩
  · refine ⟨_, exec_rnd_presented x kk hrng, State.reg_setReg_same _ _ _, rfl, sameRegsBut_setReg (s.setRng rest) x _, ?_⟩
    apply unchangedBut_intro <;> simp
  · refine ⟨_, exec_rnd_free x kk hrng, State.reg_setReg_same _ _ _, sameRegsBut_setReg s.nextDraw x _, ?_⟩
    apply unchangedBut_intro <;> simp
  · exact ⟨_, rfl, (State.reg_setReg_same _ _ _).trans BitVec.and_zero⟩

end Sys2Proof.Machine
end

section
/-! PROOFS. The index register and memory (43_index_memory.md): the writes of I, and the stores and loads from I upward,
inside memory and out of it. -/

namespace Sys2Proof.Machine

/-! ### Writes of I -/

theorem indexPlus_toNat (i : Word) (a : Byte) : (indexPlus i a).toNat = (i.toNat + a.toNat) % 65536 := by
  rw [indexPlus, BitVec.toNat_add, BitVec.toNat_setWidth_of_le (by decide)]

/-- The low nibble is the remainder modulo 16, and five times it does not wrap. -/
theorem glyphAddress_toNat (v : Byte) : (glyphAddress v).toNat = 5 * (v.toNat % 16) := by
  have hnibble : (v &&& 0x0F#8).toNat = v.toNat % 16 := by
    rw [BitVec.toNat_and]
    exact Nat.and_two_pow_sub_one_eq_mod v.toNat 4
  rw [glyphAddress, hnibble, BitVec.toNat_ofNat, Config.glyphSize]
  omega

/-- An instruction that is one write of I leaves the result there and writes nothing else. -/
theorem next_setI {result : Word} {n : Nat} (s : State) (hresult : result.toNat = n) :
    ∃ t, (.next (s.setI result) : Host.Outcome State Fault Refusal) = .next t ∧ t.i.toNat = n ∧
      unchangedBut [.index] s t :=
  ⟨_, rfl, hresult, unchangedBut_setI _ _⟩

/-- Settles O35: each is one write of I, of a value known as a number. -/
theorem indexInstructions : Obligations.IndexInstructions :=
  fun nnn _ s => ⟨next_setI s (addrOperand_toNat nnn), next_setI s (indexPlus_toNat _ _),
    next_setI s (glyphAddress_toNat _)⟩

/-! ### The instructions, with the first address written out -/

theorem exec_ldB (x : RegIx) (s : State) :
    exec (.ldB x) s = .next (storeSeq s.i.toNat (bcdDigits (s.reg x)) s) := rfl

theorem exec_ldMemVx (x : RegIx) (s : State) :
    exec (.ldMemVx x) s = .next (storeSeq s.i.toNat (blockRegs x s) s) := rfl

theorem exec_ldVxMem (x : RegIx) (s : State) :
    exec (.ldVxMem x) s = .next (loadSeq s.i.toNat (x.toNat + 1) s) := rfl

/-! ### Stores inside memory -/

/-- The digits in their order: hundreds, tens, units, none above 9 (43_index_memory.md R173). -/
theorem bcdDigits_getD_toNat (v : Byte) {k : Nat} (hk : k < 3) :
    ((bcdDigits v).getD k 0).toNat =
      if k = 0 then v.toNat / 100 else if k = 1 then v.toNat / 10 % 10 else v.toNat % 10 := by
  have hv := v.isLt
  interval_cases k
  · exact Nat.mod_eq_of_lt (show v.toNat / 100 < 256 by omega)
  · exact Nat.mod_eq_of_lt (show v.toNat / 10 % 10 < 256 by omega)
  · exact Nat.mod_eq_of_lt (show v.toNat % 10 < 256 by omega)

/-- LD B inside memory puts each digit at its own place after I. -/
theorem storeSeq_bcdDigits_byteAt {a k : Nat} {v : Byte} {s : State} (hw : Memory.wf s.mem = true)
    (hin : a + 3 ≤ Config.memSize) (hk : k < 3) :
    ((storeSeq a (bcdDigits v) s).byteAt (a + k)).toNat =
      if k = 0 then v.toNat / 100 else if k = 1 then v.toNat / 10 % 10 else v.toNat % 10 := by
  rw [storeSeq_byteAt hw hin hk, bcdDigits_getD_toNat v hk]

/-- Settles O36: the three digits are one store inside memory. -/
theorem bcdStoresTheDigits : Obligations.BcdStoresTheDigits :=
  fun x s hw hin => ⟨_, exec_ldB x s, storeSeq_bcdDigits_byteAt (k := 0) hw hin (by decide),
    storeSeq_bcdDigits_byteAt (k := 1) hw hin (by decide), storeSeq_bcdDigits_byteAt (k := 2) hw hin (by decide),
    exec_sameBytesOutside hw (exec_ldB x s), unchangedBut_storeSeq_in s hin⟩

/-- Settles O37: the block is one store inside memory, as long as the block. -/
theorem blockStoreWritesV0ToVx : Obligations.BlockStoreWritesV0ToVx :=
  fun x s hw hin => ⟨_, exec_ldMemVx x s, fun _ hr => storeSeq_blockRegs_byteAt hw hin hr,
    exec_sameBytesOutside hw (exec_ldMemVx x s), unchangedBut_storeSeq_in s (by rwa [blockRegs_length])⟩

/-! ### Loads inside memory -/

/-- A load inside memory puts the byte at its own place after `a` into each register of the block. -/
theorem loadSeq_reg_in {a n : Nat} {s : State} {r : RegIx} (hin : a + n ≤ Config.memSize) (hn : n ≤ 16)
    (hr : r.toNat < n) : (loadSeq a n s).reg r = s.byteAt (a + r.toNat) := by
  have hlen : ((List.range n).map fun k => s.byteAt (a + k)).length = n := by simp
  have hloaded : 0 ≤ r.toNat ∧ r.toNat < 0 + n ∧ allLand r.toNat = true := ⟨Nat.zero_le _, by omega, rfl⟩
  rw [loadSeq_in s hin, loadRegs_reg _ _ _ _ (by omega), hlen, if_pos hloaded, Nat.sub_zero, range_map_getD _ _ _ hr]

theorem unchangedBut_loadSeq_in {a n : Nat} (s : State) (hin : a + n ≤ Config.memSize) :
    unchangedBut [.regs] s (loadSeq a n s) := by
  rw [loadSeq_in s hin]
  exact unchangedBut_loadRegs _ _ _ _

/-- Settles O38: the block is one load inside memory, and a load leaves the registers past its block. -/
theorem blockLoadReadsV0ToVx : Obligations.BlockLoadReadsV0ToVx :=
  fun x s hin => ⟨_, exec_ldVxMem x s, fun _ hr => loadSeq_reg_in hin x.isLt (Nat.lt_succ_of_le hr),
    fun _ hr => loadSeq_reg_past _ s hr, unchangedBut_loadSeq_in s hin⟩

/-- Settles O41: the load reads the bytes the store wrote, which are the registers of the block. -/
theorem blockRoundTrip : Obligations.BlockRoundTrip := by
  intro x s t u hw hin hstore hi hbytes
  obtain ⟨t', hstore', hstored, -⟩ := blockStoreWritesV0ToVx x s hw hin
  obtain rfl : t = t' := Host.Outcome.next.inj (hstore.symm.trans hstore')
  obtain ⟨w, hload, hloaded, -⟩ := blockLoadReadsV0ToVx x u (by rwa [hi])
  refine ⟨w, hload, fun r hr => ?_⟩
  calc w.reg r = u.byteAt (u.i.toNat + r.toNat) := hloaded r hr
    _ = t.byteAt (s.i.toNat + r.toNat) := by rw [hi, hbytes]
    _ = s.reg r := hstored r hr

/-! ### Stores that leave memory -/

theorem storeSeq_out_status {a : Nat} {bs : List Byte} {s : State} (hb : bs ≠ [])
    (hout : 4096 < a + bs.length) :
    (storeSeq a bs s).status = .fault ⟨.outOfBoundsMemoryAccess, max a 4096⟩ := by
  rw [storeSeq_out s hb (show ¬ a + bs.length ≤ 4096 by omega)]
  rfl

/-- What a byte holds after a store, whole or faulting: its old value, or the byte written at it when its address is one
of the store's inside memory (60_exceptions.md R233). -/
theorem storeSeq_byteAt_cases (a : Nat) (bs : List Byte) {s : State} (hw : Memory.wf s.mem = true) (c : Nat) :
    (storeSeq a bs s).byteAt c = s.byteAt c ∨
    (a ≤ c ∧ c < 4096 ∧ (storeSeq a bs s).byteAt c = bs.getD (c - a) 0) := by
  have hseq (lands : Nat → Bool) :
      Memory.read (writeSeq lands 0 a bs s.mem).1 c = s.byteAt c ∨
      (a ≤ c ∧ c < 4096 ∧ Memory.read (writeSeq lands 0 a bs s.mem).1 c = bs.getD (c - a) 0) := by
    rw [writeSeq_read _ _ _ _ hw]
    split
    case isTrue h =>
      obtain ⟨hle, -, hlt, -⟩ := h
      exact .inr ⟨hle, hlt, rfl⟩
    case isFalse => exact .inl rfl
  obtain heq | ⟨-, -, heq⟩ := storeSeq_cases a bs s <;> rw [heq]
  · exact hseq allLand
  · exact hseq (Config.partialEffect s.draws)

/-- A byte of a store holds its old value or the one written. -/
theorem storeSeq_byteAt_old_or_new (a : Nat) (bs : List Byte) {s : State} (hw : Memory.wf s.mem = true) (k : Nat) :
    (storeSeq a bs s).byteAt (a + k) = s.byteAt (a + k) ∨ (storeSeq a bs s).byteAt (a + k) = bs.getD k 0 := by
  obtain hold | ⟨-, -, hnew⟩ := storeSeq_byteAt_cases a bs hw (a + k)
  · exact .inl hold
  · exact .inr (by rwa [Nat.add_sub_cancel_left] at hnew)

/-- A store writes no byte below its first address, and none outside memory. -/
theorem sameBytesOutside_storeSeq_memory (a : Nat) (bs : List Byte) {s : State} (hw : Memory.wf s.mem = true) :
    sameBytesOutside a (4096 - a) s (storeSeq a bs s) := by
  intro c hc
  obtain hold | ⟨hle, hlt, -⟩ := storeSeq_byteAt_cases a bs hw c
  · exact hold
  · exact absurd ⟨hle, by omega⟩ hc

/-- Settles O39: both are one store that leaves memory, of the digits and of the block. -/
theorem faultingStoresLeaveOldOrNewBytes : Obligations.FaultingStoresLeaveOldOrNewBytes := by
  intro x s hw
  constructor
  · intro hout
    refine ⟨_, exec_ldB x s, storeSeq_out_status (by simp [bcdDigits]) hout, fun k hk _ => ?_,
      sameBytesOutside_storeSeq_memory _ _ hw, unchangedBut_storeSeq _ _ _⟩
    rw [← bcdDigits_getD_toNat (s.reg x) hk]
    exact (storeSeq_byteAt_old_or_new _ _ hw k).imp_right (congrArg BitVec.toNat)
  · intro hout
    have hlen := blockRegs_length x s
    refine ⟨_, exec_ldMemVx x s, storeSeq_out_status (List.ne_nil_of_length_eq_add_one hlen) (by rwa [hlen]),
      fun r hr _ => ?_, sameBytesOutside_storeSeq_memory _ _ hw, unchangedBut_storeSeq _ _ _⟩
    rw [← blockRegs_getD x s r hr]
    exact storeSeq_byteAt_old_or_new _ _ hw r.toNat

/-! ### Loads that leave memory -/

theorem loadSeq_out_status {a n : Nat} {s : State} (hn : 0 < n) (hout : 4096 < a + n) :
    (loadSeq a n s).status = .fault ⟨.outOfBoundsMemoryAccess, max a 4096⟩ := by
  rw [loadSeq_out s hn (show ¬ a + n ≤ 4096 by omega)]
  rfl

/-- After a load that leaves memory a register holds its old value, or the byte at its place when that is inside memory
(60_exceptions.md R233). -/
theorem loadSeq_reg_out {a n : Nat} {s : State} (hpos : 0 < n) (hn : n ≤ 16) (hout : 4096 < a + n) (r : RegIx) :
    (loadSeq a n s).reg r = s.reg r ∨
    (r.toNat < n ∧ a + r.toNat < 4096 ∧ (loadSeq a n s).reg r = s.byteAt (a + r.toNat)) := by
  have hlen : ((List.range (4096 - a)).map fun k => s.byteAt (a + k)).length = 4096 - a := by simp
  rw [loadSeq_out s hpos (show ¬ a + n ≤ 4096 by omega), raise_reg, State.reg_nextDraw,
    loadRegs_reg _ _ _ _ (by rw [Config.memSize, hlen]; omega), Config.memSize, hlen]
  split
  case isTrue h =>
    obtain ⟨-, hr, -⟩ := h
    exact .inr ⟨by omega, by omega, range_map_getD _ _ _ (by omega)⟩
  case isFalse => exact .inl rfl

/-- Settles O40: the block is one load that leaves memory. -/
theorem faultingLoadLeavesOldOrNewRegisters : Obligations.FaultingLoadLeavesOldOrNewRegisters := by
  intro x s hout
  refine ⟨_, exec_ldVxMem x s, loadSeq_out_status (Nat.succ_pos _) hout, fun r => ?_, unchangedBut_loadSeq _ _ _⟩
  obtain hold | ⟨hr, hmem, hnew⟩ := loadSeq_reg_out (s := s) (Nat.succ_pos _) x.isLt hout r
  · exact .inl hold
  · exact .inr ⟨Nat.le_of_lt_succ hr, hmem, hnew⟩

end Sys2Proof.Machine
end

section
/-! PROOFS. The display (44_display.md): what a whole sprite does to the pixels and to the collision, a draw done twice,
the clear, and a sprite that leaves memory. -/

namespace Sys2Proof.Machine

/-! ### A sprite inside memory -/

/-- A sprite row has no bit past the right edge. -/
theorem lt_fbWidth_of_rowBit {x0 col : Nat} {b : Byte} (h : rowBit x0 b col = true) : col < Config.fbWidth := by
  rw [rowBit, Bool.and_eq_true, decide_eq_true_eq] at h
  obtain ⟨⟨hcol, -⟩, -⟩ := h
  exact hcol

/-- The rows of a sprite, bit by bit: inside the screen, the bit that falls on a pixel is the sprite's bit there. -/
theorem rowBit_eq_spriteBit (f : Nat → Byte) (n : Nat) (x0 y0 : Byte) {col row : Nat} (hcol : col < 64) :
    (decide (y0.toNat % 32 ≤ row ∧ row < y0.toNat % 32 + n) &&
        rowBit x0.toNat (((List.range n).map f).getD (row - y0.toNat % 32) 0) col) =
      spriteBit f n x0 y0 col row := by
  by_cases hrow : y0.toNat % 32 ≤ row ∧ row < y0.toNat % 32 + n
  · rw [range_map_getD f n _ (by omega)]
    simp [rowBit, spriteBit, hrow, hcol]
  · simp [spriteBit, hrow, ← and_assoc]

/-- The bit that a DRW inside memory has for a pixel. -/
def drawnBit (x y : RegIx) (n : Nibble) (s : State) (col row : Nat) : Bool :=
  spriteBit (fun k => s.byteAt (s.i.toNat + k)) n.toNat (s.reg x) (s.reg y) col row

/-- A draw XORs the sprite's bits into the pixels. -/
theorem pixel_drawn (x y : RegIx) (n : Nibble) (s : State) {col row : Nat} (hcol : col < 64) (hrow : row < 32) :
    pixel (drawn x y n s).1 col row = (pixel s.fb col row ^^ drawnBit x y n s col row) := by
  rw [drawn, draw, pixel_drawRows _ _ _ _ _ _ hrow, List.length_map, List.length_range,
    rowBit_eq_spriteBit _ _ _ _ hcol, drawnBit]

/-- A draw collides when one of the sprite's bits meets a set pixel. -/
theorem collision_drawn (x y : RegIx) (n : Nibble) (s : State) :
    (drawn x y n s).2 = true ↔
      ∃ col row, col < 64 ∧ row < 32 ∧ pixel s.fb col row = true ∧ drawnBit x y n s col row = true := by
  rw [drawn, draw, collision_drawRows]
  simp only [List.length_map, List.length_range, Bool.false_eq_true, false_or]
  constructor
  · rintro ⟨col, row, hrow, hle, hlt, hbit, hset⟩
    have hcol : col < 64 := lt_fbWidth_of_rowBit hbit
    refine ⟨col, row, hcol, hrow, hset, ?_⟩
    rw [drawnBit, ← rowBit_eq_spriteBit _ _ _ _ hcol, hbit, Bool.and_true, decide_eq_true_eq]
    exact ⟨hle, hlt⟩
  · rintro ⟨col, row, hcol, hrow, hset, hbit⟩
    rw [drawnBit, ← rowBit_eq_spriteBit _ _ _ _ hcol, Bool.and_eq_true, decide_eq_true_eq] at hbit
    obtain ⟨⟨hle, hlt⟩, hbit⟩ := hbit
    exact ⟨col, row, hrow, hle, hlt, hbit, hset⟩

/-- A draw collides exactly when it clears a set pixel. -/
theorem collision_drawn_iff_clears (x y : RegIx) (n : Nibble) (s : State) :
    (drawn x y n s).2 = true ↔
      ∃ col row, col < 64 ∧ row < 32 ∧ pixel s.fb col row = true ∧ pixel (drawn x y n s).1 col row = false := by
  rw [collision_drawn]
  refine exists₂_congr fun col row => and_congr_right fun hcol => and_congr_right fun hrow =>
    and_congr_right fun hset => ?_
  rw [pixel_drawn x y n s hcol hrow, hset, Bool.true_xor, Bool.not_eq_false']

/-- Settles O44: pixels and collision of the whole draw; its publication and the write of VF are all that it changes. -/
theorem drawXorsTheSprite : Obligations.DrawXorsTheSprite := by
  intro x y n s hin
  refine ⟨_, exec_drw_in x y hin, fun _ _ hcol hrow => pixel_drawn x y n s hcol hrow, fun hclears => ?_,
    fun hkeeps => ?_, rfl, sameRegsBut_setReg (s.publish _) _ _, ?_⟩
  · rw [State.reg_setReg_same, (collision_drawn_iff_clears x y n s).mpr hclears]
    rfl
  · rw [State.reg_setReg_same, Bool.eq_false_of_not_eq_true (mt (collision_drawn_iff_clears x y n s).mp hkeeps)]
    rfl
  · apply unchangedBut_intro <;> simp

/-- Settles O46: the second draw reads the same place and the same bytes, and XOR with the same bit twice is nothing. -/
theorem drawingTwiceRestoresTheScreen : Obligations.DrawingTwiceRestoresTheScreen := by
  intro x y n s hxF hyF hin
  obtain ⟨t, hdraw, hpixel, -, -, -, hregs, hframe⟩ := drawXorsTheSprite x y n s hin
  have hx : t.reg x = s.reg x := hregs x (by simpa using hxF)
  have hy : t.reg y = s.reg y := hregs y (by simpa using hyF)
  have hi : t.i = s.i := hframe .index (by simp)
  have hbytes : ∀ a, t.byteAt a = s.byteAt a := hframe .memory (by simp)
  obtain ⟨u, hagain, hpixel', -⟩ := drawXorsTheSprite x y n t (by rwa [hi])
  refine ⟨t, u, hdraw, hagain, FrameBuffer.ext_pixels fun col row hcol hrow => ?_⟩
  simp only [hpixel' col row hcol hrow, hpixel col row hcol hrow, hx, hy, hi, hbytes, Bool.xor_assoc, Bool.xor_self,
    Bool.xor_false]

/-! ### The clear, and a sprite that leaves memory -/

/-- Settles O43: the clear is one publication of the blank screen. -/
theorem clearSetsEveryPixelToZero : Obligations.ClearSetsEveryPixelToZero :=
  fun s => ⟨_, rfl, fun x y _ _ => pixel_blankScreen x y, rfl, unchangedBut_publish s blankScreen⟩

/-- Settles O45: the reads come before the draw, so the failing one is the whole effect. -/
theorem drawOutsideMemoryFaults : Obligations.DrawOutsideMemoryFaults :=
  fun x y _ s _ _ => ⟨_, exec_drw_out x y (by omega), rfl, unchangedBut_raise _ s⟩

end Sys2Proof.Machine
end

section
/-! PROOFS. Timers and keys (45_timers_input.md): the skips on a key, and the instructions that read DT, write DT and enter
the key-wait. -/

namespace Sys2Proof.Machine

theorem exec_skp {x : RegIx} {s t : State} {down : Bool} (h : keyDown (s.reg x) s = (down, t)) :
    exec (.skp x) s = .next (skip down t) := by
  simp only [exec, execSkp, h]

theorem exec_sknp {x : RegIx} {s t : State} {down : Bool} (h : keyDown (s.reg x) s = (down, t)) :
    exec (.sknp x) s = .next (skip (!down) t) := by
  simp only [exec, execSknp, h]

theorem skip_not_pc (c : Bool) (s : State) : (skip (!c) s).pc = if c then s.pc else s.pc + 2 := by
  cases c <;> rfl

/-- What SKP and SKNP do for a key query that answers `down` and leaves `t`. The query keeps PC, so both skips start from
the PC of `s`; `ps` is what the query and a skip change together. -/
theorem next_keySkips {x : RegIx} {s t : State} {down : Bool} {ps : List Part} (h : keyDown (s.reg x) s = (down, t))
    (hframe : ∀ c, unchangedBut ps s (skip c t)) :
    (∃ u, exec (.skp x) s = .next u ∧ u.pc = (if down then s.pc + 2 else s.pc) ∧ unchangedBut ps s u) ∧
    (∃ u, exec (.sknp x) s = .next u ∧ u.pc = (if down then s.pc else s.pc + 2) ∧ unchangedBut ps s u) := by
  have hpc : t.pc = s.pc := by simpa only [h] using keyDown_pc (s.reg x) s
  exact ⟨⟨_, exec_skp h, hpc ▸ skip_pc down t, hframe down⟩, ⟨_, exec_sknp h, hpc ▸ skip_not_pc down t, hframe (!down)⟩⟩

/-- Settles O29: up to 15 the query reads the port and changes nothing, above it takes the free value and moves the draw
counter. -/
theorem keySkips : Obligations.KeySkips := by
  intro x s
  constructor
  · intro hkey
    exact next_keySkips (keyDown_port (Nat.lt_succ_of_le hkey) s) fun c => unchangedBut_skip c s
  · intro hfree
    refine next_keySkips (keyDown_free (Nat.not_lt_of_le hfree) s) fun c => unchangedBut_trans (t := s.nextDraw) ?_ ?_
    · apply unchangedBut_intro <;> simp
    · exact unchangedBut_mono (unchangedBut_skip c _) (by simp)

/-- Settles O48: one write each, of Vx, of DT and of STATUS. -/
theorem timerAndWaitInstructions : Obligations.TimerAndWaitInstructions :=
  fun x s => ⟨next_setReg (P := (· = _)) s rfl, ⟨_, rfl, rfl, unchangedBut_setDt s (s.reg x)⟩,
    ⟨_, rfl, rfl, unchangedBut_setStatus s (.waitKey x)⟩⟩

end Sys2Proof.Machine
end

section
/-! PROOFS. Faults and the timer clock (60_exceptions.md): taking a fault (R232), the faults an instruction can raise
(R230, R235), and the ticks (R240). -/

namespace Sys2Proof.Machine

/-! ### Taking a fault -/

/-- Settles O12: `raise` is one write of STATUS, and a step in FAULT stops. -/
theorem raiseWritesStatusOnly : Obligations.RaiseWritesStatusOnly :=
  fun c s => ⟨rfl, rfl, unchangedBut_raise c s, step_of_fault rfl⟩

/-! ### The faults of the instructions -/

/-- A store leaves STATUS or faults at its first address outside memory. -/
theorem storeSeq_status_cases (a : Nat) (bs : List Byte) (s : State) :
    (storeSeq a bs s).status = s.status ∨ (storeSeq a bs s).status = .fault (accessFault (max a 4096)) := by
  obtain heq | ⟨-, -, heq⟩ := storeSeq_cases a bs s <;> rw [heq]
  · exact .inl rfl
  · exact .inr rfl

/-- A load leaves STATUS or faults at its first address outside memory. -/
theorem loadSeq_status_cases (a n : Nat) (s : State) :
    (loadSeq a n s).status = s.status ∨ (loadSeq a n s).status = .fault (accessFault (max a 4096)) := by
  obtain ⟨bs, heq, -⟩ | ⟨bs, -, heq, -⟩ := loadSeq_cases a n s <;> rw [heq]
  · exact .inl (unchangedBut_loadRegs _ _ _ _ .status (by simp))
  · exact .inr rfl

theorem exec_drw_status_cases {x y : RegIx} {n : Nibble} {s t : State} (h : exec (.drw x y n) s = .next t) :
    t.status = s.status ∨ t.status = .fault (accessFault (max s.i.toNat 4096)) := by
  by_cases hin : n.toNat = 0 ∨ s.i.toNat + n.toNat ≤ 4096
  · obtain rfl := Host.Outcome.next.inj ((exec_drw_in x y hin).symm.trans h)
    exact .inl rfl
  · obtain rfl := Host.Outcome.next.inj ((exec_drw_out x y hin).symm.trans h)
    exact .inr rfl

theorem exec_call_status_cases {nnn : BitVec 12} {s t : State} (h : exec (.call nnn) s = .next t) :
    t.status = s.status ∨ (16 ≤ s.sp ∧ t.status = .fault ⟨.stackOverflow, s.pc.toNat⟩) := by
  by_cases hsp : s.sp < 16
  · obtain rfl := Host.Outcome.next.inj ((exec_call_room nnn hsp).symm.trans h)
    exact .inl rfl
  · obtain rfl := Host.Outcome.next.inj ((exec_call_full nnn hsp).symm.trans h)
    exact .inr ⟨Nat.le_of_not_lt hsp, rfl⟩

theorem exec_ret_status_cases {s t : State} (h : exec .ret s = .next t) :
    t.status = s.status ∨ (s.sp = 0 ∧ t.status = .fault ⟨.stackUnderflow, 0⟩) := by
  cases hsp : s.sp with
  | zero =>
    obtain rfl := Host.Outcome.next.inj ((exec_ret_empty hsp).symm.trans h)
    exact .inr ⟨rfl, rfl⟩
  | succ n =>
    obtain rfl := Host.Outcome.next.inj ((exec_ret_top hsp).symm.trans h)
    exact .inl rfl

/-- The fault of an access from I upward: its info is a 16-bit address outside memory (60_exceptions.md R230). -/
theorem accessFault_from_index {s t : State} {c : FaultCause}
    (ht : t.status = .fault (accessFault (max s.i.toNat 4096))) (hc : t.status = .fault c) :
    c.kind = .outOfBoundsMemoryAccess ∧ c.info = max s.i.toNat 0x1000 ∧ c.info ≤ 0xFFFF := by
  obtain rfl : accessFault (max s.i.toNat 4096) = c := Status.fault.inj (ht.symm.trans hc)
  have hi := s.i.isLt
  exact ⟨rfl, rfl, max_le (by omega) (by decide)⟩

/-- Settles O51: an instruction that leaves STATUS raises nothing, and one that can change it either faults in its own
way or enters the key-wait. -/
theorem onlyTheseFaultsArise : Obligations.OnlyTheseFaultsArise := by
  intro i s t c hs h hc
  have hchanged : t.status ≠ s.status := fun hsame => hs c (hsame.symm.trans hc)
  cases i with
  | drw x y n =>
    have ht := (exec_drw_status_cases h).resolve_left hchanged
    obtain ⟨hkind, hinfo, hle⟩ := accessFault_from_index ht hc
    exact .inl ⟨hkind, hinfo, hle, .inl ⟨x, y, n, rfl⟩⟩
  | ldB x | ldMemVx x =>
    cases h
    have ht := (storeSeq_status_cases _ _ s).resolve_left hchanged
    obtain ⟨hkind, hinfo, hle⟩ := accessFault_from_index ht hc
    exact .inl ⟨hkind, hinfo, hle, .inr ⟨x, by simp⟩⟩
  | ldVxMem x =>
    cases h
    have ht := (loadSeq_status_cases _ _ s).resolve_left hchanged
    obtain ⟨hkind, hinfo, hle⟩ := accessFault_from_index ht hc
    exact .inl ⟨hkind, hinfo, hle, .inr ⟨x, .inr (.inr rfl)⟩⟩
  | call nnn =>
    obtain ⟨hfull, ht⟩ := (exec_call_status_cases h).resolve_left hchanged
    exact .inr (.inl ⟨Status.fault.inj (hc.symm.trans ht), hfull, nnn, rfl⟩)
  | ret =>
    obtain ⟨hempty, ht⟩ := (exec_ret_status_cases h).resolve_left hchanged
    exact .inr (.inr ⟨Status.fault.inj (hc.symm.trans ht), hempty, rfl⟩)
  | ldVxK x => cases h; cases hc
  | _ => exact absurd (exec_frame h .status (by simp [writesParts])) hchanged

/-! ### The timer clock -/

theorem unchangedBut_setTurns (s : State) (ts : List Turn) : unchangedBut [.turns] s (s.setTurns ts) := by
  apply unchangedBut_intro <;> simp

theorem unchangedBut_timerTick (s : State) : unchangedBut [.delay, .sound] s (timerTick s) := by
  apply unchangedBut_intro <;> simp [timerTick]

/-- The move of a tick: it leaves the list and counts the timers down. -/
theorem unchangedBut_tick (s : State) (ts : List Turn) :
    unchangedBut [.delay, .sound, .turns] s (timerTick (s.setTurns ts)) :=
  unchangedBut_trans (unchangedBut_mono (unchangedBut_setTurns s ts) (by simp))
    (unchangedBut_mono (unchangedBut_timerTick _) (by simp))

/-- A run of `n` ticks takes `n` off each timer, down to 0. -/
theorem runTurns_ticks (n : Nat) {s : State} (hs : s.safe) :
    ∃ t, runTurns (List.replicate n .tick) s = .next t ∧ t.dt.toNat = s.dt.toNat - n ∧
      t.st.toNat = s.st.toNat - n ∧ unchangedBut [.delay, .sound, .turns] s t := by
  induction n generalizing s with
  | zero => exact ⟨_, rfl, rfl, rfl, unchangedBut_mono (unchangedBut_setTurns s []) (by simp)⟩
  | succ n ih =>
    have hfirst : runTurns (List.replicate (n + 1) .tick) s =
        runTurns (List.replicate n .tick) (timerTick (s.setTurns (List.replicate n .tick))) :=
      runTurns_cons hs rfl rfl
    obtain ⟨t, hrest, hdt, hst, hframe⟩ := ih (s := timerTick (s.setTurns (List.replicate n .tick))) hs
    refine ⟨t, hfirst.trans hrest, ?_, ?_, unchangedBut_trans (unchangedBut_tick s _) hframe⟩
    · rw [hdt, (timersRan_timerTick _).dt, State.setTurns_dt, Nat.sub_sub, Nat.add_comm]
    · rw [hst, (timersRan_timerTick _).st, State.setTurns_st, Nat.sub_sub, Nat.add_comm]

/-- Settles O14: one tick is one down-count of each timer, and `n` of them by induction. -/
theorem timerTickCountsDown : Obligations.TimerTickCountsDown :=
  ⟨fun s ts hs hts => ⟨_, step_turn hs hts, countDown_eq s.dt, countDown_eq s.st, rfl, unchangedBut_tick s ts⟩,
    fun n _ hs => runTurns_ticks n hs⟩

end Sys2Proof.Machine
end

section
/-! PROOFS. Reset and load (70_reset_and_hazards.md R260 to R262): the two branches of the Loader, and the state in which
a run of an image starts. -/

namespace Sys2Proof.Machine

/-! ### The two branches of the Loader -/

/-- An image that fits is loaded by one block write from 0x200 (R261). -/
theorem loadImage_fits {image : List Byte} {s t : State} (h : writeBlock Config.loadBase image s = .ok t) :
    loadImage image s = t := by
  rw [loadImage, h]

/-- An image that does not fit is one fault, taken before any write (R262). -/
theorem loadImage_refused {image : List Byte} {s : State} {c : FaultCause}
    (h : writeBlock Config.loadBase image s = .error c) : loadImage image s = raise c s := by
  rw [loadImage, h]

/-! ### The invariant -/

/-- A new memory keeps the invariant when it is canonical. -/
theorem State.Inv.setMem {s : State} {m : Memory} (hs : s.Inv) (hm : Memory.wf m = true) : (s.setMem m).Inv where
  mem_wf := hm
  sp_le := hs.sp_le
  snapshot_eq := hs.snapshot_eq
  slot_le := hs.slot_le
  pc_le := hs.pc_le

theorem State.Inv.raise {s : State} (hs : s.Inv) (c : FaultCause) : (raise c s).Inv :=
  hs.of_eq rfl rfl rfl rfl rfl hs.pc_le

/-- The Loader keeps the invariant: it writes canonical memory, or STATUS only. -/
theorem loadImage_keeps_inv (image : List Byte) {s : State} (hs : s.Inv) : (loadImage image s).Inv := by
  by_cases hin : Config.loadBase + image.length ≤ Config.memSize
  · rw [loadImage_fits (writeBlock_in s hin), storeSeq_in s hin]
    exact hs.setMem (writeSeq_wf _ _ _ _ hs.mem_wf)
  · rw [loadImage_refused (writeBlock_out s hin)]
    exact hs.raise _

/-- Settles O54: the reset state meets the invariant, and the Loader keeps it. -/
theorem bootMeetsTheInvariant : Obligations.BootMeetsTheInvariant :=
  fun image => loadImage_keeps_inv image resetMeetsTheInvariant

/-! ### Accepted and refused images -/

/-- Settles O59: 3584 bytes are what memory holds from 0x200 upward, so the two ranges of lengths are the two cases of the
block write at 0x200 on the reset state; the frame keeps STATUS and PC of an accepted image. -/
theorem imagesLoadVerbatimOrAreRefused : Obligations.ImagesLoadVerbatimOrAreRefused := by
  refine ⟨fun image hfits => ?_, fun image hlong => ?_⟩
  · obtain ⟨t, hwrite, hbytes, houtside, hframe⟩ :=
      (writeBlockIsAllOrNothing 0x200 image State.reset Memory.wf_nil).1 (by omega)
    rw [boot, loadImage_fits hwrite]
    exact ⟨hframe .status (by simp), hframe .pc (by simp), hbytes, houtside, hframe⟩
  · have hrefused : writeBlock 0x200 image State.reset = .error ⟨.loadTooLarge, image.length⟩ :=
      (writeBlockIsAllOrNothing 0x200 image State.reset Memory.wf_nil).2 (by omega)
    rw [boot, loadImage_refused hrefused]
    exact ⟨rfl, unchangedBut_raise _ _, step_of_fault rfl⟩

end Sys2Proof.Machine
end
